-- ==== Sys2Proof/Word.lean ====
section
/-! DEFINITION. The two unit widths of the machine: the 16-bit word and the 8-bit input byte. -/

namespace Sys2Proof

/-- A memory word, register, stack entry, pc or operand word: 16 bits, unsigned (R6 WORD_BITS, R7). -/
abbrev Word := BitVec 16

/-- One byte: what `in` receives (R6 INPUT_BYTE_BITS, R35) and half of an image word (R33). -/
abbrev Byte := BitVec 8

/-- The index of a general register, 0 to 7 (R23). -/
abbrev RegIdx := Fin 8

end Sys2Proof
end

