-- ==== Sys2Proof/Config.lean ====
section
/-! DEFINITION. The parameters of 00_scope.md R6 that the spec does not fix: the one a machine is built with, and the one value
left OPEN. The fixed ones stand as numbers where the spec's pseudocode has them: WORD_BITS 16 (`Word`), NUM_REGS 8
(`RegIdx`), VALUE_MOD and REG_BASE 32768, REG_LAST 32775 (below 32776), NUM_OPCODES 22, N at most 65536. -/

namespace Sys2Proof

/-- OPEN (R6 LINE_TERMINATOR, decision D21): the byte the input collaborator appends to each line. A free value: it has
no body, so no proof can know it (log entry 12). -/
opaque Config.lineTerminator : Byte

/-- What is chosen when a machine is built and never changes afterwards, besides its image. -/
structure Params where
  /-- STACK_CAPACITY (R6, R27, decision D12): `none` is the source's unbounded stack, the default. -/
  stackCapacity : Option Nat
deriving DecidableEq, Repr

end Sys2Proof
end

