-- ==== Sys2Proof/Syntax.lean ====
section
/-! DEFINITION. The instructions: the 22 rows of 30_encoding.md R64, with each operand in its role. -/

namespace Sys2Proof

/-- A source operand (role S, R44, R62): what it denotes is read by `resolve`. -/
inductive Src where
  /-- a literal, 0 to 32767 -/
  | lit (v : Word)
  /-- a register -/
  | reg (r : RegIdx)
deriving DecidableEq, Repr

/-- A destination operand (role D, R45, R62): where `store` writes. A word below 32768 is a memory address. -/
inductive Dst where
  /-- a memory address, 0 to 32767 -/
  | mem (addr : Word)
  /-- a register -/
  | reg (r : RegIdx)
deriving DecidableEq, Repr

/-- One constructor per row of the opcode table (R64), operands in encoding order. -/
inductive Instr where
  | halt
  | set (a : Dst) (b : Src)
  | push (a : Src)
  | pop (a : Dst)
  | eq (a : Dst) (b c : Src)
  | gt (a : Dst) (b c : Src)
  | jmp (a : Src)
  | jt (a b : Src)
  | jf (a b : Src)
  | add (a : Dst) (b c : Src)
  | mult (a : Dst) (b c : Src)
  | mod (a : Dst) (b c : Src)
  | and (a : Dst) (b c : Src)
  | or (a : Dst) (b c : Src)
  | not (a : Dst) (b : Src)
  | rmem (a : Dst) (b : Src)
  /-- `wmem`'s address operand `a` is a source: it is resolved (R46, R161, conflict C7) -/
  | wmem (a b : Src)
  | call (a : Src)
  | ret
  | out (a : Src)
  /-- the row `in` (a Lean keyword, hence the name) -/
  | inp (a : Dst)
  | noop
deriving DecidableEq, Repr

end Sys2Proof
end

