-- ==== Sys2Proof/WellFormed.lean ====
section
/-! DEFINITION. Which instruction terms have an encoding: a literal or a memory address of an operand is below 32768,
because a larger word names a register or is illegal (R43, R62, R66). Register indexes are bounded by their type. -/

namespace Sys2Proof

/-- A literal is 0 to 32767 (R43, R62). -/
def Src.wf : Src → Bool
  | .lit v => decide (v.toNat < 32768)
  | .reg _ => true

/-- A memory destination is 0 to 32767 (R45, R62). -/
def Dst.wf : Dst → Bool
  | .mem addr => decide (addr.toNat < 32768)
  | .reg _ => true

/-- Every operand is well formed. -/
def Instr.wf : Instr → Bool
  | .halt | .ret | .noop => true
  | .set a b | .not a b | .rmem a b => a.wf && b.wf
  | .push a | .jmp a | .call a | .out a => a.wf
  | .pop a | .inp a => a.wf
  | .jt a b | .jf a b | .wmem a b => a.wf && b.wf
  | .eq a b c | .gt a b c | .add a b c | .mult a b c | .mod a b c | .and a b c | .or a b c => a.wf && b.wf && c.wf

end Sys2Proof
end

