-- ==== Sys2Proof/Decode.lean ====
section
/-! DEFINITION. Words and bytes, the decoder (total, rejecting by name) and the encoder, from 30_encoding.md R60 to R66. -/

namespace Sys2Proof

/-- The two bytes of a word in the image file's order: bits 7:0 first, then bits 15:8 (R33, R47). -/
def bytesOfWord (w : Word) : List Byte := [w.extractLsb' 0 8, w.extractLsb' 8 8]

/-- The word whose first byte is `lo` and second byte is `hi`: lo + 256 * hi (R33). -/
def wordOfBytes (lo hi : Byte) : Word := hi ++ lo

/-- The complete words in a list of bytes, in order; a trailing odd byte is in no word (R33). -/
def wordsOfBytes : List Byte → List Word
  | lo :: hi :: rest => wordOfBytes lo hi :: wordsOfBytes rest
  | _ => []

/-- Why words do not decode. -/
inductive Reject where
  /-- word `j` of the instruction (0 the opcode word) is not there -/
  | missingWord (j : Nat)
  /-- the opcode word is 22 or more (R61, R66) -/
  | unknownOpcode (op : Word)
  /-- operand `j` (0 the first) is 32776 or more, the first such operand (R66, R205) -/
  | invalidOperand (j : Nat) (w : Word)
deriving DecidableEq, Repr

/-- Operand word `w`, the `j`th, in the role of a source (R43, R62, R66). -/
def srcOfWord (j : Nat) (w : Word) : Except Reject Src :=
  if w.toNat < 32768 then .ok (.lit w)
  else if h : w.toNat < 32776 then .ok (.reg ⟨w.toNat - 32768, by omega⟩)
  else .error (.invalidOperand j w)

/-- Operand word `w`, the `j`th, in the role of a destination (R43, R45, R62, R66). -/
def dstOfWord (j : Nat) (w : Word) : Except Reject Dst :=
  if w.toNat < 32768 then .ok (.mem w)
  else if h : w.toNat < 32776 then .ok (.reg ⟨w.toNat - 32768, by omega⟩)
  else .error (.invalidOperand j w)

/-- Operand words of a row `op a`, a source (R60 W2): all are fetched (phase 3) before any is checked (phase 4, R72). -/
def decodeS (mk : Src → Instr) : List Word → Except Reject Instr
  | a :: _ => do return mk (← srcOfWord 0 a)
  | [] => .error (.missingWord 1)

/-- Operand words of a row `op a`, a destination. -/
def decodeD (mk : Dst → Instr) : List Word → Except Reject Instr
  | a :: _ => do return mk (← dstOfWord 0 a)
  | [] => .error (.missingWord 1)

/-- Operand words of a row `op a b`, two sources (R60 W3). -/
def decodeSS (mk : Src → Src → Instr) : List Word → Except Reject Instr
  | a :: b :: _ => do return mk (← srcOfWord 0 a) (← srcOfWord 1 b)
  | [_] => .error (.missingWord 2)
  | [] => .error (.missingWord 1)

/-- Operand words of a row `op a b`, a destination and a source. -/
def decodeDS (mk : Dst → Src → Instr) : List Word → Except Reject Instr
  | a :: b :: _ => do return mk (← dstOfWord 0 a) (← srcOfWord 1 b)
  | [_] => .error (.missingWord 2)
  | [] => .error (.missingWord 1)

/-- Operand words of a row `op a b c`, a destination and two sources (R60 W4). -/
def decodeDSS (mk : Dst → Src → Src → Instr) : List Word → Except Reject Instr
  | a :: b :: c :: _ => do return mk (← dstOfWord 0 a) (← srcOfWord 1 b) (← srcOfWord 2 c)
  | [_, _] => .error (.missingWord 3)
  | [_] => .error (.missingWord 2)
  | [] => .error (.missingWord 1)

/-- The decoder on the words from the opcode word on; words after the instruction are not looked at. The opcode word is
compared as a raw number, never resolved (R61); the roles and counts are R64's; the order of the rejections is
R208's. -/
def decode : List Word → Except Reject Instr
  | [] => .error (.missingWord 0)
  | op :: ws =>
    match op.toNat with
    | 0 => .ok .halt
    | 1 => decodeDS .set ws
    | 2 => decodeS .push ws
    | 3 => decodeD .pop ws
    | 4 => decodeDSS .eq ws
    | 5 => decodeDSS .gt ws
    | 6 => decodeS .jmp ws
    | 7 => decodeSS .jt ws
    | 8 => decodeSS .jf ws
    | 9 => decodeDSS .add ws
    | 10 => decodeDSS .mult ws
    | 11 => decodeDSS .mod ws
    | 12 => decodeDSS .and ws
    | 13 => decodeDSS .or ws
    | 14 => decodeDS .not ws
    | 15 => decodeDS .rmem ws
    | 16 => decodeSS .wmem ws
    | 17 => decodeS .call ws
    | 18 => .ok .ret
    | 19 => decodeS .out ws
    | 20 => decodeD .inp ws
    | 21 => .ok .noop
    | _ => .error (.unknownOpcode op)

/-- The decoder on bytes as the image file holds them. -/
def decodeBytes (bs : List Byte) : Except Reject Instr := decode (wordsOfBytes bs)

/-- The operand word of a source (R43). -/
def Src.word : Src → Word
  | .lit v => v
  | .reg r => BitVec.ofNat 16 (32768 + r.val)

/-- The operand word of a destination (R43, R45). -/
def Dst.word : Dst → Word
  | .mem addr => addr
  | .reg r => BitVec.ofNat 16 (32768 + r.val)

/-- The opcode of an instruction (R64, first column). -/
def Instr.opcode : Instr → Nat
  | .halt => 0
  | .set .. => 1
  | .push .. => 2
  | .pop .. => 3
  | .eq .. => 4
  | .gt .. => 5
  | .jmp .. => 6
  | .jt .. => 7
  | .jf .. => 8
  | .add .. => 9
  | .mult .. => 10
  | .mod .. => 11
  | .and .. => 12
  | .or .. => 13
  | .not .. => 14
  | .rmem .. => 15
  | .wmem .. => 16
  | .call .. => 17
  | .ret => 18
  | .out .. => 19
  | .inp .. => 20
  | .noop => 21

/-- The operand words of an instruction in encoding order (R60, R64). -/
def Instr.operandWords : Instr → List Word
  | .halt | .ret | .noop => []
  | .push a | .jmp a | .call a | .out a => [a.word]
  | .pop a | .inp a => [a.word]
  | .set a b | .not a b | .rmem a b => [a.word, b.word]
  | .jt a b | .jf a b | .wmem a b => [a.word, b.word]
  | .eq a b c | .gt a b c | .add a b c | .mult a b c | .mod a b c | .and a b c | .or a b c => [a.word, b.word, c.word]

/-- The words of an instruction: the opcode word, then the operand words (R60). -/
def encode (i : Instr) : List Word := BitVec.ofNat 16 i.opcode :: i.operandWords

/-- The bytes of an instruction as the image file holds them (R33). -/
def encodeBytes (i : Instr) : List Byte := (encode i).flatMap bytesOfWord

/-- Length in words: 1 + k (R60, R65). -/
def Instr.length (i : Instr) : Nat := (encode i).length

/-- The words of an instruction given as one number of `nbits` bits, first word least significant; bits above `nbits`
are 0, up to the longest instruction. -/
def tableWords (nbits w : Nat) : List Word :=
  let v := w % 2 ^ nbits
  [BitVec.ofNat 16 v, BitVec.ofNat 16 (v / 2 ^ 16), BitVec.ofNat 16 (v / 2 ^ 32), BitVec.ofNat 16 (v / 2 ^ 48)]

/-- The instruction the decoder reads from a row's bits as spec/opcode_table.json numbers them. -/
def decodeTableWord (nbits w : Nat) : Option Instr := (decode (tableWords nbits w)).toOption

end Sys2Proof
end

