-- ==== Sys2Proof/Machine/State.lean ====
section
/-! DEFINITION. The state of the machine (10_state.md), why a step can stop (60_exceptions.md R201), the values of the status
output (R31), and the state after reset. -/

namespace Sys2Proof.Machine

/-- The one address space (R40): N words, held as the bytes of the image file (R33). Word `a` is byte `2 * a` (bits 7:0)
and byte `2 * a + 1` (bits 15:8). A byte that is not listed is 0 (log entries 1 and 2). -/
structure Memory where
  /-- N, the number of words: fixed at load (R6, R21) -/
  size : Nat
  /-- the bytes that are not 0, addresses strictly rising -/
  cells : List Host.Cell
deriving DecidableEq, Repr

/-- All the state of the machine: the five parts of R20, the two port streams (R34, R35), and the construction parameters
(R6). The `status` output is `State.status`; `stepped` is what it needs to be RUNNING at construction (R37). -/
structure State where
  /-- STACK_CAPACITY (R6, R27) -/
  params : Params
  /-- `mem` (R21, R22) -/
  mem : Memory
  /-- `x[0]` to `x[7]` (R23, R24) -/
  regs : Vector Word 8
  /-- the call/value stack, bottom first, top last (R25, R8) -/
  stack : List Word
  /-- the Instruction Pointer (R29) -/
  pc : Word
  /-- `halted` (R30) -/
  halted : Bool
  /-- the bytes the host has made available and no `in` has consumed, oldest first (R35) -/
  input : List Byte
  /-- the output trace, oldest first (R34) -/
  output : List Word
  /-- the model's own: a step has been taken since construction. Only the status output reads it (R37, R74; log entry 6) -/
  stepped : Bool
deriving DecidableEq, Repr

/-- What every fault records and keeps (R209): the address of the faulting instruction's opcode word, the output trace, and
the input left, consumed bytes staying consumed. Nothing else is defined after a fault. -/
structure FaultSite where
  ia : Word
  output : List Word
  input : List Byte
deriving DecidableEq, Repr

/-- The fatal faults (R200, R201), each with its info. A fault ends the run: there is no handler and no return (R210), so it
is not a next state. All are safe: the spec itself ends the run there. -/
inductive Fault where
  /-- Code 1 (R202): raised by dispatch when the opcode word is 22 or more. Safe: the source states it. -/
  | unknownOpcode (op : Word) (site : FaultSite)
  /-- Code 2 (R203): raised by `pop` on an empty stack. Safe: the source states it. -/
  | stackUnderflow (site : FaultSite)
  /-- Code 3 (R204): raised by an operand fetch, by a destination in memory, by `rmem` and by `wmem` at an address of N or
  more. Safe: the address does not exist. -/
  | memoryOutOfBounds (addr : Word) (site : FaultSite)
  /-- Code 4 (R205): raised by dispatch when operand word `j` is 32776 or more. Safe: decision D3 errs toward unprovable. -/
  | invalidOperand (j : Nat) (w : Word) (site : FaultSite)
  /-- Code 5 (R206): raised by `mod` with divisor 0. Safe: decision D4 errs toward unprovable. -/
  | divideByZero (site : FaultSite)
  /-- Code 6 (R207): raised by `push` and `call` when a finite stack is full. Safe: decision D12 errs toward unprovable. -/
  | stackOverflow (site : FaultSite)
deriving DecidableEq, Repr

/-- Why an instruction would have no meaning here. -/
inductive Refusal where
  /-- Raised by `exec` for an instruction without a meaning. Safe: nothing follows from it. No arm raises it: every row of
  the opcode table has its meaning. -/
  | notModelled (mnemonic : String)
deriving DecidableEq, Repr

/-- Why the load port refuses an image (R33). No machine is constructed then. -/
inductive LoadRefusal where
  /-- the file has an odd number of bytes (decision D8) -/
  | oddLength
  /-- the image has more than 65536 words (decision D7) -/
  | tooLong
deriving DecidableEq, Repr

/-- The three answers of the loop check (R71). -/
inductive LoopCheck where
  | halted
  | ended
  | execute
deriving DecidableEq, Repr

/-- The values of the status output (R31). -/
inductive Status where
  | running
  | waiting
  | halted
  | ended
  /-- the code and info of R201 -/
  | faulted (code : Nat) (ia : Word) (info : List Nat)
deriving DecidableEq, Repr

/-- The answer of one step. -/
abbrev Result := Host.Outcome State Fault Refusal

/-- The machine right after reset, which is construction (R240), from the empty image (log entry 2): the values of R37, with
the default unbounded stack (D12) and no input supplied yet. -/
def State.reset : State where
  params := ⟨none⟩
  mem := ⟨0, []⟩
  regs := Vector.replicate 8 0
  stack := []
  pc := 0
  halted := false
  input := []
  output := []
  stepped := false

end Sys2Proof.Machine
end

