-- ==== Sys2Proof/Machine/Ops.lean ====
section
/-! DEFINITION. The named operations of the machine: bytes and words of memory, registers, the stack, the ports, moving the
pc, and taking a fault. -/

namespace Sys2Proof.Machine

/-! ## Memory -/

/-- The byte listed at `k`; 0 if none is. -/
def readCell (k : Nat) : List Host.Cell → Byte
  | [] => 0
  | (a, b) :: cs => if a = k then b else readCell k cs

/-- List byte `b` at `k`, in address order, in place of any byte listed there. -/
def insertCell (k : Nat) (b : Byte) : List Host.Cell → List Host.Cell
  | [] => [(k, b)]
  | (a, c) :: cs =>
    if k < a then (k, b) :: (a, c) :: cs
    else if k = a then (k, b) :: cs
    else (a, c) :: insertCell k b cs

/-- Write byte `b` at `k`; a byte of 0 is not listed. -/
def writeCell (k : Nat) (b : Byte) (cs : List Host.Cell) : List Host.Cell :=
  if b = 0 then cs.filter (fun c => c.1 != k) else insertCell k b cs

/-- Byte `k` of memory, counted as in the image file. -/
def Memory.readByte (m : Memory) (k : Nat) : Byte := readCell k m.cells

/-- Write byte `k` of memory, counted as in the image file. -/
def Memory.writeByte (m : Memory) (k : Nat) (b : Byte) : Memory := { m with cells := writeCell k b m.cells }

/-- The word at `a`, which the caller knows to be below N. -/
def Memory.getWord (m : Memory) (a : Nat) : Word := wordOfBytes (m.readByte (2 * a)) (m.readByte (2 * a + 1))

/-- Write the word at `a`, which the caller knows to be below N. -/
def Memory.setWord (m : Memory) (a : Nat) (v : Word) : Memory :=
  (m.writeByte (2 * a) (v.extractLsb' 0 8)).writeByte (2 * a + 1) (v.extractLsb' 8 8)

/-- MemRead(a, 1) (R41): the word at `a`; none at N or above. -/
def Memory.read (m : Memory) (a : Nat) : Option Word := if a < m.size then some (m.getWord a) else none

/-- MemWrite(a, 1, v) (R42), with no masking (R22); none at N or above. -/
def Memory.write (m : Memory) (a : Nat) (v : Word) : Option Memory := if a < m.size then some (m.setWord a v) else none

/-- The canonical form: at most 65536 words (R6), addresses strictly rising, only existing bytes, none of them 0. -/
abbrev Memory.wf (m : Memory) : Prop :=
  m.size ≤ 65536 ∧ m.cells.Pairwise (fun c d => c.1 < d.1) ∧ ∀ c ∈ m.cells, c.1 < 2 * m.size ∧ c.2 ≠ 0

/-- The bytes of a list that are not 0, listed from address `k` on. -/
def cellsOfBytes (k : Nat) : List Byte → List Host.Cell
  | [] => []
  | b :: bs => if b = 0 then cellsOfBytes (k + 1) bs else (k, b) :: cellsOfBytes (k + 1) bs

/-- The memory that holds an image (R37): `mem[0..N-1] = image[0..N-1]`. -/
def Memory.ofImage (image : List Word) : Memory := ⟨image.length, cellsOfBytes 0 (image.flatMap bytesOfWord)⟩

/-! ## One update per field of the state -/

def State.setMem (s : State) (m : Memory) : State := { s with mem := m }

/-- `x[r] <- v` (R8, R23). -/
def State.setReg (s : State) (r : RegIdx) (v : Word) : State := { s with regs := s.regs.set r.val v r.isLt }

def State.setStack (s : State) (l : List Word) : State := { s with stack := l }

/-- `pc <- t`: a control transfer, to any address (R8, R133). -/
def State.jump (s : State) (t : Word) : State := { s with pc := t }

/-- The pc after `n` words are fetched: `n` increments modulo 65536 (R29, R70, decision D6). -/
def State.advance (s : State) (n : Nat) : State := s.jump (s.pc + BitVec.ofNat 16 n)

def State.setInput (s : State) (l : List Byte) : State := { s with input := l }

def State.setOutput (s : State) (l : List Word) : State := { s with output := l }

/-- A step begins: the machine is past construction (log entry 6). -/
def State.beginStep (s : State) : State := { s with stepped := true }

/-- `x[r]` (R8, R23): always readable, none hard-wired. -/
def State.reg (s : State) (r : RegIdx) : Word := s.regs[r.val]'r.isLt

/-! ## Taking a fault -/

/-- What a fault raised in state `s` by the instruction at `ia` records and keeps (R209). -/
def State.site (s : State) (ia : Word) : FaultSite := ⟨ia, s.output, s.input⟩

/-- `raise F(info)` (R8, R200, R209), the one way a fault is taken: the instruction and the run end at once. Of the state
only what R209 defines is kept, in the fault's site; there is no handler, and no register saves anything (R200, R210). -/
def raise (ia : Word) (f : FaultSite → Fault) (s : State) : Result := .fault (f (s.site ia))

/-- The code of a fault (R201, decision D10). -/
def Fault.code : Fault → Nat
  | .unknownOpcode .. => 1
  | .stackUnderflow .. => 2
  | .memoryOutOfBounds .. => 3
  | .invalidOperand .. => 4
  | .divideByZero .. => 5
  | .stackOverflow .. => 6

/-- The info of a fault besides ia (R201). -/
def Fault.info : Fault → List Nat
  | .unknownOpcode op _ => [op.toNat]
  | .memoryOutOfBounds addr _ => [addr.toNat]
  | .invalidOperand j w _ => [j, w.toNat]
  | .stackUnderflow _ | .divideByZero _ | .stackOverflow _ => []

/-- Where a fault was raised, and what is kept (R209). -/
def Fault.site : Fault → FaultSite
  | .unknownOpcode _ site | .stackUnderflow site | .memoryOutOfBounds _ site | .invalidOperand _ _ site
  | .divideByZero site | .stackOverflow site => site

/-! ## Memory, stack and ports of the machine, with their faults -/

/-- MemWrite of the instruction at `ia` (R42): faults at N or above. -/
def memWrite (ia addr v : Word) (s : State) : Result :=
  match s.mem.write addr.toNat v with
  | some m => .next (s.setMem m)
  | none => raise ia (.memoryOutOfBounds addr) s

/-- The stack is finite and holds STACK_CAPACITY entries (R27). -/
def State.stackFull (s : State) : Bool := decide (s.params.stackCapacity = some s.stack.length)

/-- Push(v) of the instruction at `ia` (R27): faults, before any change, when the stack is full (R207). -/
def push (ia v : Word) (s : State) : Result :=
  if s.stackFull then raise ia .stackOverflow s else .next (s.setStack (s.stack ++ [v]))

/-- Pop() (R28): the top value and the stack without it; none on an empty stack, where each caller decides. -/
def State.pop (s : State) : Option (Word × State) :=
  match s.stack.getLast? with
  | some v => some (v, s.setStack s.stack.dropLast)
  | none => none

/-- Emit(v) (R34): always completes. -/
def State.emit (s : State) (v : Word) : State := s.setOutput (s.output ++ [v])

/-- InByte() (R35): the next byte, consumed; none when the host has made none available. -/
def State.inByte (s : State) : Option (Byte × State) :=
  match s.input with
  | b :: bs => some (b, s.setInput bs)
  | [] => none

/-! ## Reading a result -/

/-- The state a result goes on with. -/
def nextState : Result → Option State
  | .next s => some s
  | _ => none

/-- The fault a result ends in. -/
def faultOf : Result → Option Fault
  | .fault f => some f
  | _ => none

end Sys2Proof.Machine
end

