-- ==== Sys2Proof/Machine/Operands.lean ====
section
/-! DEFINITION. The operand resolver (20_memory.md R43 to R46): sources are "what", destinations are "where". -/

namespace Sys2Proof.Machine

/-- Resolve (R44): a literal denotes itself, a register its 16-bit contents. No side effect, no fault. -/
def resolve (o : Src) (s : State) : Word :=
  match o with
  | .lit v => v
  | .reg r => s.reg r

/-- Store of the instruction at `ia` (R45): a register, or the memory word at the address itself, which is never resolved;
may fault at N or above. -/
def store (ia : Word) (d : Dst) (v : Word) (s : State) : Result :=
  match d with
  | .reg r => .next (s.setReg r v)
  | .mem addr => memWrite ia addr v s

end Sys2Proof.Machine
end

