-- ==== Sys2Proof/Machine/Alu.lean ====
section
/-! DEFINITION. `add`, `mult`, `mod`, `and`, `or` and `not` (44_alu.md). -/

namespace Sys2Proof.Machine

/-- The exact sum, reduced modulo 32768 (R140). -/
def addWord (x y : Word) : Word := BitVec.ofNat 16 ((x.toNat + y.toNat) % 32768)

/-- The exact product, reduced modulo 32768 (R141). -/
def multWord (x y : Word) : Word := BitVec.ofNat 16 ((x.toNat * y.toNat) % 32768)

/-- The unsigned remainder of the raw 16-bit values (R142, R148); the caller knows that `y` is not 0. -/
def modWord (x y : Word) : Word := BitVec.ofNat 16 (x.toNat % y.toNat)

/-- Bits 14:0 inverted, bit 15 cleared (R145, R149). -/
def notWord (x : Word) : Word := ~~~x &&& 0x7FFF

/-- R140. -/
def execAdd (a : Dst) (b c : Src) (s : State) : Result :=
  store s.pc a (addWord (resolve b s) (resolve c s)) (s.advance 4)

/-- R141. -/
def execMult (a : Dst) (b c : Src) (s : State) : Result :=
  store s.pc a (multWord (resolve b s) (resolve c s)) (s.advance 4)

/-- R142: a divisor of 0 faults before the store (R206). -/
def execMod (a : Dst) (b c : Src) (s : State) : Result :=
  if resolve c s = 0 then raise s.pc .divideByZero s
  else store s.pc a (modWord (resolve b s) (resolve c s)) (s.advance 4)

/-- R143: all 16 bits, not masked. -/
def execAnd (a : Dst) (b c : Src) (s : State) : Result :=
  store s.pc a (resolve b s &&& resolve c s) (s.advance 4)

/-- R144: all 16 bits, not masked. -/
def execOr (a : Dst) (b c : Src) (s : State) : Result :=
  store s.pc a (resolve b s ||| resolve c s) (s.advance 4)

/-- R145. -/
def execNot (a : Dst) (b : Src) (s : State) : Result := store s.pc a (notWord (resolve b s)) (s.advance 3)

end Sys2Proof.Machine
end

