-- ==== Sys2Proof/Machine/Flags.lean ====
section
/-! DEFINITION. The one flag, `halted` (R30), the loop check that reads it (R71), and the truth values the comparisons write in
place of condition codes (R122). -/

namespace Sys2Proof.Machine

/-- `halted <- true`: nothing ever clears it (R30). -/
def State.setHalted (s : State) : State := { s with halted := true }

/-- The loop check before every instruction: `halted` first, then the pc against N (R71, decision D15). -/
def State.loopCheck (s : State) : LoopCheck :=
  if s.halted then .halted
  else if s.mem.size ≤ s.pc.toNat then .ended
  else .execute

/-- The word a comparison writes: exactly 0 or 1 (R122). -/
def truthWord (b : Bool) : Word := if b then 1 else 0

end Sys2Proof.Machine
end

