-- ==== Sys2Proof/Machine/CallReturn.lean ====
section
/-! DEFINITION. `call` and `ret` (46_call_return.md). -/

namespace Sys2Proof.Machine

/-- R170: the pushed address is ia + 2; the target is resolved before the push. -/
def execCall (a : Src) (s : State) : Result :=
  match push s.pc (s.advance 2).pc (s.advance 2) with
  | .next t => .next (t.jump (resolve a s))
  | .fault f => .fault f
  | .refused r => .refused r

/-- R171: on an empty stack a normal halt, not a fault (R213). -/
def execRet (s : State) : Result :=
  match (s.advance 1).pop with
  | some (v, t) => .next (t.jump v)
  | none => .next (s.advance 1).setHalted

end Sys2Proof.Machine
end

