-- ==== Sys2Proof/Machine/Compare.lean ====
section
/-! DEFINITION. `eq` and `gt` (42_compare.md): unsigned, on all 16 bits (R122). -/

namespace Sys2Proof.Machine

/-- R120. -/
def execEq (a : Dst) (b c : Src) (s : State) : Result :=
  store s.pc a (truthWord (resolve b s == resolve c s)) (s.advance 4)

/-- R121: strict. -/
def execGt (a : Dst) (b c : Src) (s : State) : Result :=
  store s.pc a (truthWord (decide ((resolve c s).toNat < (resolve b s).toNat))) (s.advance 4)

end Sys2Proof.Machine
end

