-- ==== Sys2Proof/Machine/Control.lean ====
section
/-! DEFINITION. `halt` and `noop` (40_control.md). -/

namespace Sys2Proof.Machine

/-- R100. -/
def execHalt (s : State) : Result := .next (s.advance 1).setHalted

/-- R101: only the pc moves. -/
def execNoop (s : State) : Result := .next (s.advance 1)

end Sys2Proof.Machine
end

