-- ==== Sys2Proof/Machine/DataStack.lean ====
section
/-! DEFINITION. `set`, `push` and `pop` (41_data_stack.md). -/

namespace Sys2Proof.Machine

/-- R110. -/
def execSet (a : Dst) (b : Src) (s : State) : Result := store s.pc a (resolve b s) (s.advance 3)

/-- R111. -/
def execPush (a : Src) (s : State) : Result := push s.pc (resolve a s) (s.advance 2)

/-- R112: the top is removed before the store, which may still fault. -/
def execPop (a : Dst) (s : State) : Result :=
  match (s.advance 2).pop with
  | some (v, t) => store s.pc a v t
  | none => raise s.pc .stackUnderflow s

end Sys2Proof.Machine
end

