-- ==== Sys2Proof/Machine/Io.lean ====
section
/-! DEFINITION. `out` and `in` (47_io.md). -/

namespace Sys2Proof.Machine

/-- R180: the 16-bit value, unchanged. -/
def execOut (a : Src) (s : State) : Result := .next ((s.advance 2).emit (resolve a s))

/-- R181: with no byte available the step does not happen, and the state stays as it was (status WAITING, D14); otherwise the
byte is consumed, zero-extended and stored, and the store may fault. -/
def execIn (a : Dst) (s : State) : Result :=
  match (s.advance 2).inByte with
  | some (b, t) => store s.pc a (b.setWidth 16) t
  | none => .next s

end Sys2Proof.Machine
end

