-- ==== Sys2Proof/Machine/Jump.lean ====
section
/-! DEFINITION. `jmp`, `jt` and `jf` (43_jump.md): absolute targets, unchecked until the next loop check (R133). -/

namespace Sys2Proof.Machine

/-- R130. -/
def execJmp (a : Src) (s : State) : Result := .next (s.jump (resolve a s))

/-- R131: any non-zero value counts as true. -/
def execJt (a b : Src) (s : State) : Result :=
  .next (if resolve a s = 0 then s.advance 3 else s.jump (resolve b s))

/-- R132: only 0 counts as false. -/
def execJf (a b : Src) (s : State) : Result :=
  .next (if resolve a s = 0 then s.jump (resolve b s) else s.advance 3)

end Sys2Proof.Machine
end

