-- ==== Sys2Proof/Machine/MemoryOps.lean ====
section
/-! DEFINITION. `rmem` and `wmem` (45_memory_ops.md): the address is a resolved value. -/

namespace Sys2Proof.Machine

/-- R160: the read may fault, then the store. -/
def execRmem (a : Dst) (b : Src) (s : State) : Result :=
  match s.mem.read (resolve b s).toNat with
  | some v => store s.pc a v (s.advance 3)
  | none => raise s.pc (.memoryOutOfBounds (resolve b s)) s

/-- R161: `a` is resolved, so a register there holds the address (conflict C7). -/
def execWmem (a b : Src) (s : State) : Result := memWrite s.pc (resolve a s) (resolve b s) (s.advance 3)

end Sys2Proof.Machine
end

