-- ==== Sys2Proof/Machine/Fetch.lean ====
section
/-! DEFINITION. Phases 1 to 4 of a step (30_encoding.md R70, R72): reading an instruction's words from memory, decoding them,
and the faults of dispatch. -/

namespace Sys2Proof.Machine

/-- The address of word `j` of the instruction at the pc, modulo 65536 (R60, decision D6). -/
def State.wordAddr (s : State) (j : Nat) : Word := s.pc + BitVec.ofNat 16 j

/-- Word `j` of the instruction at the pc, from the same memory that stores write (R52, R70); none at N or above. -/
def State.instrWord (s : State) (j : Nat) : Option Word := s.mem.read (s.wordAddr j).toNat

/-- Up to `n` consecutive words from word `j` on, stopping at the first that does not exist. -/
def State.wordsFrom (s : State) (j : Nat) : Nat → List Word
  | 0 => []
  | n + 1 =>
    match s.instrWord j with
    | some w => w :: s.wordsFrom (j + 1) n
    | none => []

/-- The words an instruction at the pc can have. Reading one more than it has is without effect (R49). -/
def State.window (s : State) : List Word := s.wordsFrom 0 4

/-- Phases 1 to 4: the instruction at the pc, or why there is none. -/
def State.fetchDecode (s : State) : Except Reject Instr := decode s.window

/-- The faults of dispatch (R202, R204, R205), all at ia = pc, before any effect. -/
def dispatchFault (r : Reject) (s : State) : Result :=
  match r with
  | .unknownOpcode op => raise s.pc (.unknownOpcode op) s
  | .missingWord j => raise s.pc (.memoryOutOfBounds (s.wordAddr j)) s
  | .invalidOperand j w => raise s.pc (.invalidOperand j w) s

/-- Write words at consecutive addresses from `a` on, modulo 65536. -/
def Memory.putWords (m : Memory) (a : Word) : List Word → Memory
  | [] => m
  | w :: ws => (m.setWord a.toNat w).putWords (a + 1) ws

/-- The state with a program of these words at the pc, as a load from outside would leave it: the memory is made long enough
for them, and the machine is not halted (log entry 11). -/
def State.placeWords (s : State) (ws : List Word) : State :=
  let needed := min 65536 (s.pc.toNat + ws.length)
  { s with mem := ({ s.mem with size := max s.mem.size needed } : Memory).putWords s.pc ws, halted := false }

end Sys2Proof.Machine
end

