-- ==== Sys2Proof/Machine/Step.lean ====
section
/-! DEFINITION. One step (30_encoding.md R72): the loop check, then fetch, decode and operand check, then the instruction. -/

namespace Sys2Proof.Machine

/-- Step() (R72). A halted or ended machine has no further step (R31): its state stays as it is (log entry 4). -/
def step (s : State) : Host.Outcome State Fault Refusal :=
  match s.loopCheck with
  | .halted => .next s
  | .ended => .next s
  | .execute =>
    match s.fetchDecode with
    | .ok i => exec i s.beginStep
    | .error r => dispatchFault r s

/-- The state with a table row's instruction loaded where the next step fetches (log entry 11). -/
def State.withFetchWord (s : State) (nbits w : Nat) : State := s.placeWords (tableWords nbits w)

end Sys2Proof.Machine
end

