-- ==== Sys2Proof/Machine/Assembly.lean ====
section
/-! DEFINITION. The assembly notation of 30_encoding.md R68 (decision D16) and its derived idioms. It has no meaning of its own:
an item stands for words. -/

namespace Sys2Proof.Machine

/-- The mnemonics of R64. -/
def mnemonic : Instr → String
  | .halt => "halt"
  | .set .. => "set"
  | .push .. => "push"
  | .pop .. => "pop"
  | .eq .. => "eq"
  | .gt .. => "gt"
  | .jmp .. => "jmp"
  | .jt .. => "jt"
  | .jf .. => "jf"
  | .add .. => "add"
  | .mult .. => "mult"
  | .mod .. => "mod"
  | .and .. => "and"
  | .or .. => "or"
  | .not .. => "not"
  | .rmem .. => "rmem"
  | .wmem .. => "wmem"
  | .call .. => "call"
  | .ret => "ret"
  | .out .. => "out"
  | .inp .. => "in"
  | .noop => "noop"

/-- `rI` for the register words, a decimal number for the others (R68). -/
def operandText (w : Word) : String :=
  if w.toNat < 32768 then toString w.toNat else "r" ++ toString (w.toNat - 32768)

/-- `mnemonic op1 op2 op3`, operands in encoding order, separated by spaces (R68). -/
def instrText (i : Instr) : String := " ".intercalate (mnemonic i :: i.operandWords.map operandText)

/-- One item of a source text (R68). -/
inductive AsmItem where
  | instr (i : Instr)
  /-- `.word V`: a raw word, the only way to write an out-of-domain one -/
  | word (v : Word)
  /-- `label:` names the address of the next word -/
  | label (name : String)
deriving DecidableEq, Repr

/-- The words an item stands for. -/
def AsmItem.words : AsmItem → List Word
  | .instr i => encode i
  | .word v => [v]
  | .label _ => []

/-- The image a list of items stands for. -/
def assemble (items : List AsmItem) : List Word := items.flatMap AsmItem.words

/-- The address a label names, the first item being at address `start`. -/
def labelAddr (name : String) (start : Nat) : List AsmItem → Option Nat
  | [] => none
  | .label n :: items => if n = name then some start else labelAddr name start items
  | item :: items => labelAddr name (start + item.words.length) items

/-- `sub a b k` = `add a b (32768 - k)`, for k from 1 to 32768 (R4, R68). -/
def subIdiom (a : Dst) (b : Src) (k : Nat) : Instr := .add a b (.lit (BitVec.ofNat 16 (32768 - k)))

/-- `mov` = `set` (R68). -/
def movIdiom (a : Dst) (b : Src) : Instr := .set a b

/-- `clear a` = `set a 0` (R68). -/
def clearIdiom (a : Dst) : Instr := .set a (.lit 0)

end Sys2Proof.Machine
end

