-- ==== Sys2Proof/Machine/Load.lean ====
section
/-! DEFINITION. Construction and the host's side of the ports (10_state.md R33 to R37, 70_reset_and_hazards.md R240). -/

namespace Sys2Proof.Machine

/-- Construction from an image of words (R37, R240), refused above 65536 words (R33, D7). The stack is unbounded unless a
capacity is given (D12). -/
def construct (image : List Word) (stackCapacity : Option Nat := none) : Except LoadRefusal State :=
  if image.length ≤ 65536 then
    .ok { State.reset with params := ⟨stackCapacity⟩, mem := Memory.ofImage image }
  else .error .tooLong

/-- The load port on an image file: little-endian byte pairs in order, an odd length refused (R33, D8). -/
def loadFile (bytes : List Byte) (stackCapacity : Option Nat := none) : Except LoadRefusal State :=
  if bytes.length % 2 = 0 then construct (wordsOfBytes bytes) stackCapacity else .error .oddLength

/-- The host makes bytes available, at any time between instructions (R35, R36). -/
def State.supplyInput (bytes : List Byte) (s : State) : State := s.setInput (s.input ++ bytes)

/-- The input collaborator makes one line available: its text and the terminator byte, whose value is OPEN (R35, D21). -/
def State.supplyLine (text : List Byte) (s : State) : State := s.supplyInput (text ++ [Config.lineTerminator])

end Sys2Proof.Machine
end

