-- ==== Sys2Proof/Machine/Status.lean ====
section
/-! DEFINITION. The status output (10_state.md R31) and what the host observes (R36, R209, R243). -/

namespace Sys2Proof.Machine

/-- The instruction at the pc is `in` and no input byte is available (R31, R181): decided after phases 3 and 4. -/
def State.waits (s : State) : Bool :=
  match s.fetchDecode with
  | .ok (.inp _) => s.input.isEmpty
  | _ => false

/-- The status of a machine that has not faulted (R31): HALTED before ENDED (D15). Construction gives RUNNING or ENDED, whatever
the first instruction is (R37); a first `in` that finds no byte takes RUNNING to WAITING (R74; log entry 6). -/
def State.status (s : State) : Status :=
  match s.loopCheck with
  | .halted => .halted
  | .ended => .ended
  | .execute => if s.stepped && s.waits then .waiting else .running

/-- HALTED, ENDED and FAULTED are terminal (R31, R74). -/
def Status.terminal : Status → Bool
  | .running | .waiting => false
  | .halted | .ended | .faulted .. => true

/-- FAULTED(code, ia, info) (R31, R209). -/
def Fault.status (f : Fault) : Status := .faulted f.code f.site.ia f.info

/-- What the host can read after a step: the status and the output trace (R36). -/
def observe : Result → Option (Status × List Word)
  | .next s => some (s.status, s.output)
  | .fault f => some (f.status, f.site.output)
  | .refused _ => none

/-- The state the host can read: after HALTED or ENDED only (R36, R243). -/
def finalState : Result → Option State
  | .next s => if s.status = .halted ∨ s.status = .ended then some s else none
  | _ => none

/-- Memory, registers and stack after a step from `s`, where the spec defines them: after a completed step, and after
UnknownOpcode, the one fault that is fixed to leave them unchanged (R202, R209). After any other fault they are unspecified. -/
def survives (s : State) : Result → Option (Memory × Vector Word 8 × List Word)
  | .next t => some (t.mem, t.regs, t.stack)
  | .fault (.unknownOpcode _ _) => some (s.mem, s.regs, s.stack)
  | .fault _ => none
  | .refused _ => none

end Sys2Proof.Machine
end

