-- ==== Sys2Proof/Safety.lean ====
section
/-! DEFINITION. What counts as a safe run, and the terms the claims about the machine use. -/

namespace Sys2Proof.Machine

/-- The loop check lets an instruction execute (R71). -/
def State.Running (s : State) : Prop := s.halted = false ∧ s.pc.toNat < s.mem.size

/-- The invariant of every state a machine can be in: memory canonical, and no more stack entries than a finite stack holds
(R6, R27). -/
def State.Inv (s : State) : Prop :=
  s.mem.wf ∧ ∀ c, s.params.stackCapacity = some c → s.stack.length ≤ c

/-- `n` steps, ending at the first fault. -/
def stepN : Nat → State → Result
  | 0, s => .next s
  | n + 1, s =>
    match step s with
    | .next t => stepN n t
    | .fault f => .fault f
    | .refused r => .refused r

/-- A run is safe if it never faults (R200): it halts, ends, waits, or goes on. -/
def State.SafeRun (s : State) : Prop := ∀ n f, stepN n s ≠ .fault f

/-- Store to `d` does not fault: a register, or a memory address below N (R45). -/
def StoreOk (d : Dst) (s : State) : Prop :=
  match d with
  | .reg _ => True
  | .mem addr => addr.toNat < s.mem.size

/-- From `s` to `t`, registers and memory change as Store(d, v) says (R45) and not otherwise: `d` holds `v`, every other
register and every byte of memory outside `d` reads as before, and N is the same. -/
def Stored (d : Dst) (v : Word) (s t : State) : Prop :=
  t.mem.size = s.mem.size ∧
  match d with
  | .reg r => t.reg r = v ∧ (∀ q, q ≠ r → t.reg q = s.reg q) ∧ ∀ k, t.mem.readByte k = s.mem.readByte k
  | .mem addr =>
    t.mem.read addr.toNat = some v ∧ (∀ q, t.reg q = s.reg q) ∧
      ∀ k, k ≠ 2 * addr.toNat → k ≠ 2 * addr.toNat + 1 → t.mem.readByte k = s.mem.readByte k

/-- Everything besides registers, memory and pc is the same. -/
def SameRest (s t : State) : Prop :=
  t.stack = s.stack ∧ t.halted = s.halted ∧ t.input = s.input ∧ t.output = s.output ∧ t.params = s.params ∧
    t.stepped = s.stepped

/-- An instruction with opcode `op` and `k` operands that is cut short by the end of memory faults at the first missing word
(phase 3, R204, decision D5). -/
def MissingOperandFaults (op k : Nat) : Prop :=
  ∀ (s : State) (j : Nat), s.Running → s.instrWord 0 = some (BitVec.ofNat 16 op) → 1 ≤ j → j ≤ k →
    (∀ i, i < j → s.instrWord i ≠ none) → s.instrWord j = none →
    step s = .fault (.memoryOutOfBounds (s.wordAddr j) (s.site s.pc))

/-- An instruction with opcode `op` and `k` operands, all there, faults at its first operand word of 32776 or more (phase 4,
R205, decision D3). Operand `j` is word `j + 1`. -/
def IllegalOperandFaults (op k : Nat) : Prop :=
  ∀ (s : State) (j : Nat) (w : Word), s.Running → s.instrWord 0 = some (BitVec.ofNat 16 op) →
    (∀ i, i ≤ k → s.instrWord i ≠ none) → j < k → s.instrWord (j + 1) = some w → 32776 ≤ w.toNat →
    (∀ i v, i < j → s.instrWord (i + 1) = some v → v.toNat < 32776) →
    step s = .fault (.invalidOperand j w (s.site s.pc))

/-- The common faults, as every instruction file of the spec states them. -/
def CommonFaults (op k : Nat) : Prop := MissingOperandFaults op k ∧ IllegalOperandFaults op k

/-- The destination operand of an instruction, if it has one (R64, role D). -/
def destination : Instr → Option Dst
  | .set a _ | .pop a | .eq a _ _ | .gt a _ _ | .add a _ _ | .mult a _ _ | .mod a _ _ | .and a _ _ | .or a _ _
  | .not a _ | .rmem a _ | .inp a => some a
  | .halt | .push _ | .jmp _ | .jt _ _ | .jf _ _ | .wmem _ _ | .call _ | .ret | .out _ | .noop => none

/-- The register an instruction writes, if any. -/
def destReg (i : Instr) : Option RegIdx :=
  match destination i with
  | some (.reg r) => some r
  | _ => none

/-- The word address an instruction stores to from state `s`, if any: a destination's address itself (R45), or what `wmem`'s
first operand resolves to (R161). -/
def storeAddr (i : Instr) (s : State) : Option Word :=
  match i with
  | .wmem a _ => some (resolve a s)
  | _ =>
    match destination i with
    | some (.mem addr) => some addr
    | _ => none

/-- What a destination operand holds: its register, or its memory word. -/
def dstWord (d : Dst) (s : State) : Option Word :=
  match d with
  | .reg r => some (s.reg r)
  | .mem addr => s.mem.read addr.toNat

/-- The value an instruction that stores writes from state `s`, by the formula of its rule (files 41 to 47); none where it has no
value to write (an empty stack, a divisor of 0, an address at or beyond N, no input byte) or stores nothing. -/
def writtenWord (i : Instr) (s : State) : Option Word :=
  match i with
  | .set _ b | .wmem _ b => some (resolve b s)
  | .pop _ => s.stack.getLast?
  | .eq _ b c => some (if (resolve b s).toNat = (resolve c s).toNat then 1 else 0)
  | .gt _ b c => some (if (resolve b s).toNat > (resolve c s).toNat then 1 else 0)
  | .add _ b c => some (BitVec.ofNat 16 (((resolve b s).toNat + (resolve c s).toNat) % 32768))
  | .mult _ b c => some (BitVec.ofNat 16 (((resolve b s).toNat * (resolve c s).toNat) % 32768))
  | .mod _ b c => if resolve c s = 0 then none else some (BitVec.ofNat 16 ((resolve b s).toNat % (resolve c s).toNat))
  | .and _ b c => some (resolve b s &&& resolve c s)
  | .or _ b c => some (resolve b s ||| resolve c s)
  | .not _ b => some (BitVec.ofNat 16 (32767 - (resolve b s).toNat % 32768))
  | .rmem _ b => s.mem.read (resolve b s).toNat
  | .inp _ => s.input.head?.map (BitVec.setWidth 16)
  | .halt | .push _ | .jmp _ | .jt _ _ | .jf _ _ | .call _ | .ret | .out _ | .noop => none

/-- Where an instruction transfers control to from state `s`, if it does (R29, R133). -/
def transferTarget (i : Instr) (s : State) : Option Word :=
  match i with
  | .jmp a | .call a => some (resolve a s)
  | .jt a b => if resolve a s = 0 then none else some (resolve b s)
  | .jf a b => if resolve a s = 0 then some (resolve b s) else none
  | .ret => s.stack.getLast?
  | _ => none

/-- What an instruction appends to the output trace (R34, R180). -/
def emits : Instr → State → List Word
  | .out a, s => [resolve a s]
  | _, _ => []

/-- How many input bytes an instruction takes, if there are any (R35, R181). -/
def takes : Instr → Nat
  | .inp _ => 1
  | _ => 0

/-- The four instructions that touch the stack (R26). -/
def touchesStack : Instr → Bool
  | .push _ | .pop _ | .call _ | .ret => true
  | _ => false

/-- The same answer with `f` applied to a next state and `g` to the site of a fault. -/
def mapResult (f : State → State) (g : FaultSite → FaultSite) : Result → Result
  | .next s => .next (f s)
  | .fault (.unknownOpcode op site) => .fault (.unknownOpcode op (g site))
  | .fault (.stackUnderflow site) => .fault (.stackUnderflow (g site))
  | .fault (.memoryOutOfBounds addr site) => .fault (.memoryOutOfBounds addr (g site))
  | .fault (.invalidOperand j w site) => .fault (.invalidOperand j w (g site))
  | .fault (.divideByZero site) => .fault (.divideByZero (g site))
  | .fault (.stackOverflow site) => .fault (.stackOverflow (g site))
  | .refused r => .refused r

end Sys2Proof.Machine
end

