-- ==== Sys2Proof/Certificates/Slice0/Obligations.lean ====
section
/-! DEFINITION. The statements for the provers, in the order of the spec's files. -/

open Sys2Proof Sys2Proof.Machine

/-! ## State, load and reset (10_state.md, 70_reset_and_hazards.md) -/

/-- R37, R240, R241: what construction leaves. That no input is there yet (log entry 7), and that the capacity is given (log
entry 10), is the model's choice. -/
def Obligations.ConstructionSetsTheResetValues : Prop :=
  ∀ (image : List Word) (capacity : Option Nat), image.length ≤ 65536 →
    ∃ s, construct image capacity = .ok s ∧
      s.mem.size = image.length ∧ (∀ a, s.mem.read a = image[a]?) ∧ (∀ r, s.reg r = 0) ∧ s.stack = [] ∧ s.pc = 0 ∧
      s.halted = false ∧ s.output = [] ∧ s.input = [] ∧ s.params.stackCapacity = capacity ∧
      (image = [] → s.status = .ended) ∧ (image ≠ [] → s.status = .running)

/-- The fixed reset state is the construction from the empty image with the default stack (log entries 2 and 10): every field
has R37's value, and the invariant holds. -/
def Obligations.ResetIsTheEmptyConstruction : Prop :=
  construct [] = .ok State.reset ∧ State.reset.Inv ∧ State.reset.mem.size = 0 ∧ (∀ r, State.reset.reg r = 0) ∧
    State.reset.stack = [] ∧ State.reset.pc = 0 ∧ State.reset.halted = false ∧ State.reset.output = [] ∧
    State.reset.status = .ended

/-- R33: the load port on a file of bytes. -/
def Obligations.LoadReadsLittleEndianPairs : Prop :=
  ∀ (bytes : List Byte) (capacity : Option Nat),
    (bytes.length % 2 = 1 → loadFile bytes capacity = .error .oddLength) ∧
    (bytes.length % 2 = 0 → 2 * 65536 < bytes.length → loadFile bytes capacity = .error .tooLong) ∧
    (bytes.length % 2 = 0 → bytes.length ≤ 2 * 65536 →
      ∃ s, loadFile bytes capacity = .ok s ∧ bytes.length = 2 * s.mem.size ∧
        ∀ j lo hi, bytes[2 * j]? = some lo → bytes[2 * j + 1]? = some hi →
          ∃ w, s.mem.read j = some w ∧ w.toNat = lo.toNat + 256 * hi.toNat)

/-- R30. -/
def Obligations.OnlyHaltAndRetSetHalted : Prop :=
  (∀ i s t, exec i s = .next t →
    (t.halted = true ↔ s.halted = true ∨ i = .halt ∨ (i = .ret ∧ s.stack = []))) ∧
  ∀ (i : Instr) (s : State) (h : Bool),
    mapResult (fun t => { t with halted := false }) id (exec i { s with halted := h }) =
      mapResult (fun t => { t with halted := false }) id (exec i s)

/-- R26: no instruction but the four reads or writes the stack: with any other stack in its place, each answers the same. -/
def Obligations.OnlyFourInstructionsTouchTheStack : Prop :=
  ∀ (i : Instr) (s : State) (l : List Word), touchesStack i = false →
    exec i { s with stack := l } = mapResult (fun t => { t with stack := l }) id (exec i s)

/-- R34, R35: only `out` adds to the output trace, one value at its end; only `in` takes input, the oldest byte, and that byte is
gone. -/
def Obligations.OnlyOutAndInReachThePorts : Prop :=
  ∀ i s t, exec i s = .next t → t.output = s.output ++ emits i s ∧ t.input = s.input.drop (takes i)

/-- R29: the pc after each instruction: the target of a transfer, else the address after the instruction's last word, modulo
65536. That an `in` that waits answers the same state is the model's choice (log entry 5). -/
def Obligations.PcAfterEveryInstruction : Prop :=
  ∀ i s t, exec i s = .next t → t.pc = match i, transferTarget i s with
    | .inp _, _ => if s.input = [] then s.pc else s.pc + 2
    | i, none => s.pc + BitVec.ofNat 16 (encode i).length
    | _, some target => target

/-- The invariant holds of every constructed machine, and whatever input the host supplies. -/
def Obligations.ConstructedMachinesMeetTheInvariant : Prop :=
  (∀ image capacity s, construct image capacity = .ok s → s.Inv) ∧
    ∀ bytes (s : State), s.Inv → (s.supplyInput bytes).Inv

/-- Every step keeps memory canonical (no cell outside N words, N at most 65536) and a finite stack within its capacity. -/
def Obligations.EveryStepKeepsTheInvariant : Prop :=
  ∀ s t : State, s.Inv → step s = .next t → t.Inv

/-! ## Memory and operands (20_memory.md) -/

/-- R41, R42: memory words, read and written whole and unmasked; none at N or above. -/
def Obligations.MemoryReadsTheLastWrite : Prop :=
  (∀ (m : Memory) a, m.read a = none ↔ m.size ≤ a) ∧ (∀ (m : Memory) a v, m.write a v = none ↔ m.size ≤ a) ∧
  ∀ (m n : Memory) a v, m.write a v = some n →
    n.size = m.size ∧ n.read a = some v ∧ (∀ b, b ≠ a → n.read b = m.read b) ∧
      ∀ k, k ≠ 2 * a → k ≠ 2 * a + 1 → n.readByte k = m.readByte k

/-- The model's representation (log entry 1): memories in canonical form that read the same are the same data. -/
def Obligations.CanonicalMemoriesThatReadAlikeAreEqual : Prop :=
  ∀ m n : Memory, m.wf → n.wf → m.size = n.size → (∀ a, m.read a = n.read a) → m = n

/-- R44: a literal denotes itself; a register what was last stored there. -/
def Obligations.ResolveReadsWhatStoreWrote : Prop :=
  (∀ v s, resolve (.lit v) s = v) ∧ (∀ r s, resolve (.reg r) s = s.reg r) ∧
  ∀ ia r v s, ∃ t, store ia (.reg r) v s = .next t ∧ resolve (.reg r) t = v ∧
    ∀ q, q ≠ r → resolve (.reg q) t = resolve (.reg q) s

/-- R45: Store writes the register or the memory word its operand names, or faults at N or above, and changes nothing else. -/
def Obligations.StoreWritesItsTargetOnly : Prop :=
  ∀ ia d v s,
    (StoreOk d s → ∃ t, store ia d v s = .next t ∧ Stored d v s t ∧ t.pc = s.pc ∧ SameRest s t) ∧
    (¬ StoreOk d s → store ia d v s = .fault (.memoryOutOfBounds d.word (s.site ia)))

/-- R52: whatever instruction stores to a memory word, it has a value to write, and that value is what the very next fetch of that
address reads. Only an `in` that waits stores nothing. -/
def Obligations.StoredWordsAreFetched : Prop :=
  ∀ i s t addr, exec i s = .next t → storeAddr i s = some addr → ((∃ a, i = .inp a) → s.input ≠ []) →
    ∃ v, writtenWord i s = some v ∧ t.mem.read addr.toNat = some v ∧ ∀ j, t.wordAddr j = addr → t.instrWord j = some v

/-! ## Encoding, decode and the dispatch loop (30_encoding.md) -/

/-- Decode and encode agree, whatever words follow the instruction. -/
def Obligations.DecodeOfEncodeIsTheInstruction : Prop :=
  ∀ (i : Instr) (rest : List Word), i.wf = true → decode (encode i ++ rest) = .ok i

/-- What decodes is well formed, and its words are its encoding: no two instructions share words, no word is ignored. -/
def Obligations.DecodedWordsAreAnEncoding : Prop :=
  ∀ (ws : List Word) (i : Instr), decode ws = .ok i → i.wf = true ∧ ∃ rest, ws = encode i ++ rest

/-- A few words of the spec's own examples, one or more from each family. -/
def Obligations.ExampleWordsDecode : Prop :=
  decode [0] = .ok .halt ∧ decode [1, 32768, 5] = .ok (.set (.reg 0) (.lit 5)) ∧
  decode [1, 4, 77] = .ok (.set (.mem 4) (.lit 77)) ∧ decode [3, 32769] = .ok (.pop (.reg 1)) ∧
  decode [4, 32768, 32769, 5] = .ok (.eq (.reg 0) (.reg 1) (.lit 5)) ∧
  decode [7, 32768, 6] = .ok (.jt (.reg 0) (.lit 6)) ∧
  decode [9, 32770, 32768, 32769] = .ok (.add (.reg 2) (.reg 0) (.reg 1)) ∧
  decode [16, 5, 66] = .ok (.wmem (.lit 5) (.lit 66)) ∧ decode [17, 6] = .ok (.call (.lit 6)) ∧ decode [18] = .ok .ret ∧
  decode [20, 32771] = .ok (.inp (.reg 3)) ∧ decode [32768] = .error (.unknownOpcode 32768)

/-- A step runs the instruction that stands at the pc, once it has noted that the machine is past construction (log entry 6). -/
def Obligations.StepRunsTheDecodedInstruction : Prop :=
  ∀ (s : State) (i : Instr), s.Running → s.fetchDecode = .ok i → i.wf = true ∧ step s = exec i s.beginStep

/-- The same from memory up: if the words of a well-formed instruction stand at the pc (modulo 65536), the step is its
meaning. -/
def Obligations.InstructionInMemoryRuns : Prop :=
  ∀ (s : State) (i : Instr), s.Running → i.wf = true →
    (∀ j w, (encode i)[j]? = some w → s.instrWord j = some w) → step s = exec i s.beginStep

/-- R71: the loop check, `halted` first. That the steps of a halted or ended machine leave the state alone, for ever (R31, R74), is
the model's choice (log entry 4). -/
def Obligations.LoopCheckEndsTheRun : Prop :=
  ∀ s : State,
    (s.halted = true → s.status = .halted ∧ ∀ n, stepN n s = .next s) ∧
    (s.halted = false → s.mem.size ≤ s.pc.toNat → s.status = .ended ∧ ∀ n, stepN n s = .next s) ∧
    (s.Running → s.status.terminal = false)

/-- R31, R72, R74, R214: a step that leaves an `in` at the pc without input, or that is such an `in`, gives status WAITING; while
the status is WAITING a step changes nothing; once a byte is there the machine is RUNNING, and its step is the `in`. That a waiting
step answers the same state, and when a first `in` comes to WAIT, is the model's choice (log entries 5 and 6). -/
def Obligations.WaitingEndsWithAByte : Prop :=
  (∀ s t : State, s.Running → step s = .next t → t.Running → (t.status = .waiting ↔ t.waits = true)) ∧
  ∀ s : State, s.status = .waiting → step s = .next s ∧
    ∃ a, s.fetchDecode = .ok (.inp a) ∧ s.input = [] ∧
      ∀ b bs, (s.supplyInput (b :: bs)).status = .running ∧
        step (s.supplyInput (b :: bs)) = exec (.inp a) (s.supplyInput (b :: bs))

/-- R35, R36, R211: input that arrives early changes nothing but itself: unless the instruction at the pc is an `in` without input,
a step with more bytes available gives the same answer, with those bytes still available behind the others. That the port is a
list of bytes, and that bytes arrive between steps, is the model's choice (log entry 7). -/
def Obligations.EarlyInputOnlyReleasesAWait : Prop :=
  ∀ (s : State) (bytes : List Byte), ¬ (s.Running ∧ s.waits = true) →
    step (s.supplyInput bytes) =
      mapResult (fun t => t.supplyInput bytes) (fun site => { site with input := site.input ++ bytes }) (step s)

/-! ## The instructions (40_control.md to 47_io.md) -/

/-- R100. -/
def Obligations.HaltStopsTheMachine : Prop :=
  encode .halt = [0] ∧ ∀ s : State, ∃ t, exec .halt s = .next t ∧ t = { s with pc := s.pc + 1, halted := true } ∧
    t.status = .halted

/-- R101. At the last word the run ends with ENDED at the next loop check, except that a pc of 65535 wraps to 0 (R70, D6). -/
def Obligations.NoopOnlyMovesThePc : Prop :=
  encode .noop = [21] ∧ ∀ s : State, ∃ t, exec .noop s = .next t ∧ t = { s with pc := s.pc + 1 } ∧
    (s.halted = false → s.mem.size = s.pc.toNat + 1 → s.mem.size < 65536 → t.status = .ended)

/-- R110. -/
def Obligations.SetCopiesItsSource : Prop :=
  CommonFaults 1 2 ∧ ∀ (a : Dst) (b : Src) (s : State), encode (.set a b) = [1, a.word, b.word] ∧
    (StoreOk a s → ∃ t, exec (.set a b) s = .next t ∧ Stored a (resolve b s) s t ∧ t.pc = s.pc + 3 ∧ SameRest s t) ∧
    (¬ StoreOk a s → exec (.set a b) s = .fault (.memoryOutOfBounds a.word (s.site s.pc)))

/-- R111. -/
def Obligations.PushAppendsItsSource : Prop :=
  CommonFaults 2 1 ∧ ∀ (a : Src) (s : State), encode (.push a) = [2, a.word] ∧
    (s.params.stackCapacity ≠ some s.stack.length →
      exec (.push a) s = .next { s with pc := s.pc + 2, stack := s.stack ++ [resolve a s] }) ∧
    (s.params.stackCapacity = some s.stack.length → exec (.push a) s = .fault (.stackOverflow (s.site s.pc)))

/-- R112. -/
def Obligations.PopStoresTheTop : Prop :=
  CommonFaults 3 1 ∧ ∀ (a : Dst) (s : State), encode (.pop a) = [3, a.word] ∧
    (s.stack = [] → exec (.pop a) s = .fault (.stackUnderflow (s.site s.pc))) ∧
    ∀ l v, s.stack = l ++ [v] →
      (StoreOk a s → ∃ t, exec (.pop a) s = .next t ∧ Stored a v s t ∧ t.pc = s.pc + 2 ∧ t.stack = l ∧
        t.halted = s.halted ∧ t.input = s.input ∧ t.output = s.output ∧ t.params = s.params ∧ t.stepped = s.stepped) ∧
      (¬ StoreOk a s → exec (.pop a) s = .fault (.memoryOutOfBounds a.word (s.site s.pc)))

/-- The source's property S5: pop(push(S, x)) = (S, x). -/
def Obligations.PopUndoesPush : Prop :=
  ∀ (a : Src) (r : RegIdx) (s t : State), exec (.push a) s = .next t →
    ∃ u, exec (.pop (.reg r)) t = .next u ∧ u.stack = s.stack ∧ u.reg r = resolve a s ∧
      (∀ q, q ≠ r → u.reg q = s.reg q) ∧ u.mem = s.mem ∧ u.pc = s.pc + 4

/-- R120, R122. -/
def Obligations.EqWritesOneIffEqual : Prop :=
  CommonFaults 4 3 ∧ ∀ (a : Dst) (b c : Src) (s : State), encode (.eq a b c) = [4, a.word, b.word, c.word] ∧
    (StoreOk a s → ∃ t, exec (.eq a b c) s = .next t ∧
      Stored a (if (resolve b s).toNat = (resolve c s).toNat then 1 else 0) s t ∧ t.pc = s.pc + 4 ∧ SameRest s t) ∧
    (¬ StoreOk a s → exec (.eq a b c) s = .fault (.memoryOutOfBounds a.word (s.site s.pc)))

/-- R121, R122: unsigned and strict. -/
def Obligations.GtWritesOneIffGreater : Prop :=
  CommonFaults 5 3 ∧ ∀ (a : Dst) (b c : Src) (s : State), encode (.gt a b c) = [5, a.word, b.word, c.word] ∧
    (StoreOk a s → ∃ t, exec (.gt a b c) s = .next t ∧
      Stored a (if (resolve b s).toNat > (resolve c s).toNat then 1 else 0) s t ∧ t.pc = s.pc + 4 ∧ SameRest s t) ∧
    (¬ StoreOk a s → exec (.gt a b c) s = .fault (.memoryOutOfBounds a.word (s.site s.pc)))

/-- R130. -/
def Obligations.JmpJumps : Prop :=
  CommonFaults 6 1 ∧ ∀ (a : Src) (s : State), encode (.jmp a) = [6, a.word] ∧
    ∃ t, exec (.jmp a) s = .next t ∧ t = { s with pc := resolve a s } ∧
      (s.halted = false → s.mem.size ≤ (resolve a s).toNat → t.status = .ended)

/-- R131. -/
def Obligations.JtJumpsOnNonZero : Prop :=
  CommonFaults 7 2 ∧ ∀ (a b : Src) (s : State), encode (.jt a b) = [7, a.word, b.word] ∧
    exec (.jt a b) s = .next { s with pc := if resolve a s ≠ 0 then resolve b s else s.pc + 3 }

/-- R132. -/
def Obligations.JfJumpsOnZero : Prop :=
  CommonFaults 8 2 ∧ ∀ (a b : Src) (s : State), encode (.jf a b) = [8, a.word, b.word] ∧
    exec (.jf a b) s = .next { s with pc := if resolve a s = 0 then resolve b s else s.pc + 3 }

/-- R133: every target is accepted when it is set; the next loop check ends the run if it is N or more, and otherwise an instruction
starts there. -/
def Obligations.TransferTargetsAreJudgedByTheLoopCheck : Prop :=
  ∀ i s t target, transferTarget i s = some target → exec i s = .next t → s.halted = false →
    t.pc = target ∧ (s.mem.size ≤ target.toNat → t.status = .ended) ∧
      (target.toNat < s.mem.size → t.Running ∧ t.instrWord 0 = s.mem.read target.toNat)

/-- R140. -/
def Obligations.AddWritesTheSumModulo32768 : Prop :=
  CommonFaults 9 3 ∧ ∀ (a : Dst) (b c : Src) (s : State), encode (.add a b c) = [9, a.word, b.word, c.word] ∧
    ∃ v : Word, v.toNat = ((resolve b s).toNat + (resolve c s).toNat) % 32768 ∧
      (StoreOk a s → ∃ t, exec (.add a b c) s = .next t ∧ Stored a v s t ∧ t.pc = s.pc + 4 ∧ SameRest s t) ∧
      (¬ StoreOk a s → exec (.add a b c) s = .fault (.memoryOutOfBounds a.word (s.site s.pc)))

/-- R141. -/
def Obligations.MultWritesTheProductModulo32768 : Prop :=
  CommonFaults 10 3 ∧ ∀ (a : Dst) (b c : Src) (s : State), encode (.mult a b c) = [10, a.word, b.word, c.word] ∧
    ∃ v : Word, v.toNat = ((resolve b s).toNat * (resolve c s).toNat) % 32768 ∧
      (StoreOk a s → ∃ t, exec (.mult a b c) s = .next t ∧ Stored a v s t ∧ t.pc = s.pc + 4 ∧ SameRest s t) ∧
      (¬ StoreOk a s → exec (.mult a b c) s = .fault (.memoryOutOfBounds a.word (s.site s.pc)))

/-- R142. -/
def Obligations.ModWritesTheRemainder : Prop :=
  CommonFaults 11 3 ∧ ∀ (a : Dst) (b c : Src) (s : State), encode (.mod a b c) = [11, a.word, b.word, c.word] ∧
    (resolve c s = 0 → exec (.mod a b c) s = .fault (.divideByZero (s.site s.pc))) ∧
    (resolve c s ≠ 0 → ∃ v : Word, v.toNat = (resolve b s).toNat % (resolve c s).toNat ∧
      (StoreOk a s → ∃ t, exec (.mod a b c) s = .next t ∧ Stored a v s t ∧ t.pc = s.pc + 4 ∧ SameRest s t) ∧
      (¬ StoreOk a s → exec (.mod a b c) s = .fault (.memoryOutOfBounds a.word (s.site s.pc))))

/-- R143. -/
def Obligations.AndWritesTheBitwiseAnd : Prop :=
  CommonFaults 12 3 ∧ ∀ (a : Dst) (b c : Src) (s : State), encode (.and a b c) = [12, a.word, b.word, c.word] ∧
    (StoreOk a s → ∃ t, exec (.and a b c) s = .next t ∧ Stored a (resolve b s &&& resolve c s) s t ∧ t.pc = s.pc + 4 ∧
      SameRest s t) ∧
    (¬ StoreOk a s → exec (.and a b c) s = .fault (.memoryOutOfBounds a.word (s.site s.pc)))

/-- R144. -/
def Obligations.OrWritesTheBitwiseOr : Prop :=
  CommonFaults 13 3 ∧ ∀ (a : Dst) (b c : Src) (s : State), encode (.or a b c) = [13, a.word, b.word, c.word] ∧
    (StoreOk a s → ∃ t, exec (.or a b c) s = .next t ∧ Stored a (resolve b s ||| resolve c s) s t ∧ t.pc = s.pc + 4 ∧
      SameRest s t) ∧
    (¬ StoreOk a s → exec (.or a b c) s = .fault (.memoryOutOfBounds a.word (s.site s.pc)))

/-- R145. -/
def Obligations.NotWritesTheFifteenBitComplement : Prop :=
  CommonFaults 14 2 ∧ ∀ (a : Dst) (b : Src) (s : State), encode (.not a b) = [14, a.word, b.word] ∧
    ∃ v : Word, v.toNat = 32767 - (resolve b s).toNat % 32768 ∧
      (StoreOk a s → ∃ t, exec (.not a b) s = .next t ∧ Stored a v s t ∧ t.pc = s.pc + 3 ∧ SameRest s t) ∧
      (¬ StoreOk a s → exec (.not a b) s = .fault (.memoryOutOfBounds a.word (s.site s.pc)))

/-- R146: `add`, `mult` and `not` give 0 to 32767 whatever their inputs; `mod`, `and` and `or`, with well-formed sources, exceed
32767 only if a register among their sources does; `eq` and `gt` give 0 or 1. -/
def Obligations.ResultDomains : Prop :=
  ∀ (a : Dst) (b c : Src) (s t : State),
    ((exec (.add a b c) s = .next t ∨ exec (.mult a b c) s = .next t ∨ exec (.not a b) s = .next t) →
      ∃ v, dstWord a t = some v ∧ v.toNat < 32768) ∧
    ((exec (.mod a b c) s = .next t ∨ exec (.and a b c) s = .next t ∨ exec (.or a b c) s = .next t) →
      ∃ v, dstWord a t = some v ∧ (b.wf = true → c.wf = true → 32768 ≤ v.toNat →
        ∃ r, (b = .reg r ∨ c = .reg r) ∧ 32768 ≤ (s.reg r).toNat)) ∧
    ((exec (.eq a b c) s = .next t ∨ exec (.gt a b c) s = .next t) → ∃ v, dstWord a t = some v ∧ (v = 0 ∨ v = 1))

/-- R147: 16-bit wrapping arithmetic, reduced modulo 32768, gives what `add` and `mult` write. -/
def Obligations.WrappingArithmeticAgrees : Prop :=
  ∀ (a : Dst) (b c : Src) (s t : State),
    (exec (.add a b c) s = .next t → dstWord a t = some ((resolve b s + resolve c s) % 32768)) ∧
    (exec (.mult a b c) s = .next t → dstWord a t = some ((resolve b s * resolve c s) % 32768))

/-- R148: what `mod` writes is the remainder of a division with remainder. -/
def Obligations.ModObeysDivisionWithRemainder : Prop :=
  ∀ (a : Dst) (b c : Src) (s t : State), exec (.mod a b c) s = .next t →
    ∃ q r : Nat, ∃ v : Word, dstWord a t = some v ∧ v.toNat = r ∧ r < (resolve c s).toNat ∧
      (resolve b s).toNat = q * (resolve c s).toNat + r

/-- R149: `and`, `or` and `not` bit by bit, and `not` twice. -/
def Obligations.BitwiseLaws : Prop :=
  (∀ (a : Dst) (b c : Src) (s t : State), exec (.and a b c) s = .next t →
    ∃ v, dstWord a t = some v ∧ ∀ i, i < 16 → v.getLsbD i = ((resolve b s).getLsbD i && (resolve c s).getLsbD i)) ∧
  (∀ (a : Dst) (b c : Src) (s t : State), exec (.or a b c) s = .next t →
    ∃ v, dstWord a t = some v ∧ ∀ i, i < 16 → v.getLsbD i = ((resolve b s).getLsbD i || (resolve c s).getLsbD i)) ∧
  (∀ (a : Dst) (b : Src) (s t : State), exec (.not a b) s = .next t →
    ∃ v, dstWord a t = some v ∧ v.getLsbD 15 = false ∧ ∀ i, i < 15 → v.getLsbD i = !(resolve b s).getLsbD i) ∧
  ∀ (r q : RegIdx) (b : Src) (s t u : State), exec (.not (.reg r) b) s = .next t →
    exec (.not (.reg q) (.reg r)) t = .next u → (u.reg q).toNat = (resolve b s).toNat % 32768

/-- R160. -/
def Obligations.RmemReadsMemory : Prop :=
  CommonFaults 15 2 ∧ ∀ (a : Dst) (b : Src) (s : State), encode (.rmem a b) = [15, a.word, b.word] ∧
    (s.mem.size ≤ (resolve b s).toNat →
      exec (.rmem a b) s = .fault (.memoryOutOfBounds (resolve b s) (s.site s.pc))) ∧
    ((resolve b s).toNat < s.mem.size → ∃ v, s.mem.read (resolve b s).toNat = some v ∧
      (StoreOk a s → ∃ t, exec (.rmem a b) s = .next t ∧ Stored a v s t ∧ t.pc = s.pc + 3 ∧ SameRest s t) ∧
      (¬ StoreOk a s → exec (.rmem a b) s = .fault (.memoryOutOfBounds a.word (s.site s.pc))))

/-- R161: the address is what the first operand resolves to; no register is ever written. -/
def Obligations.WmemWritesMemory : Prop :=
  CommonFaults 16 2 ∧ ∀ (a b : Src) (s : State), encode (.wmem a b) = [16, a.word, b.word] ∧
    ((resolve a s).toNat < s.mem.size → ∃ t, exec (.wmem a b) s = .next t ∧
      Stored (.mem (resolve a s)) (resolve b s) s t ∧ t.pc = s.pc + 3 ∧ SameRest s t) ∧
    (s.mem.size ≤ (resolve a s).toNat →
      exec (.wmem a b) s = .fault (.memoryOutOfBounds (resolve a s) (s.site s.pc)))

/-- R170. -/
def Obligations.CallPushesTheReturnAddress : Prop :=
  CommonFaults 17 1 ∧ ∀ (a : Src) (s : State), encode (.call a) = [17, a.word] ∧
    (s.params.stackCapacity ≠ some s.stack.length →
      exec (.call a) s = .next { s with pc := resolve a s, stack := s.stack ++ [s.pc + 2] }) ∧
    (s.params.stackCapacity = some s.stack.length → exec (.call a) s = .fault (.stackOverflow (s.site s.pc)))

/-- R171, R213. -/
def Obligations.RetPopsOrHalts : Prop :=
  encode .ret = [18] ∧ ∀ s : State,
    (s.stack = [] → ∃ t, exec .ret s = .next t ∧ t = { s with pc := s.pc + 1, halted := true } ∧ t.status = .halted) ∧
    ∀ l v, s.stack = l ++ [v] → exec .ret s = .next { s with pc := v, stack := l }

/-- R172: a `ret` that finds the stack as the `call` left it, in whatever state, returns to the word after the `call`, with the stack
as before the `call`, and changes nothing else. -/
def Obligations.RetReturnsFromCall : Prop :=
  ∀ (a : Src) (s t u : State), exec (.call a) s = .next t → u.stack = t.stack →
    exec .ret u = .next { u with pc := s.pc + 2, stack := s.stack }

/-- R180. -/
def Obligations.OutEmitsItsSource : Prop :=
  CommonFaults 19 1 ∧ ∀ (a : Src) (s : State), encode (.out a) = [19, a.word] ∧
    exec (.out a) s = .next { s with pc := s.pc + 2, output := s.output ++ [resolve a s] }

/-- `in` (47_io.md): waiting, taking a byte, and a store that faults after the byte is consumed. What a step answers when there is no
byte (the same state, by exec; that state marked as past construction, by step) is the model's choice (log entries 5 and 6). -/
def Obligations.InTakesAByteOrWaits : Prop :=
  CommonFaults 20 1 ∧ ∀ (a : Dst) (s : State), encode (.inp a) = [20, a.word] ∧
    (s.input = [] → exec (.inp a) s = .next s) ∧
    (s.Running → s.fetchDecode = .ok (.inp a) → s.input = [] → step s = .next s.beginStep ∧ s.beginStep.status = .waiting) ∧
    ∀ b bs, s.input = b :: bs → ∃ v : Word, v.toNat = b.toNat ∧
      (StoreOk a s → ∃ t, exec (.inp a) s = .next t ∧ Stored a v s t ∧ t.pc = s.pc + 2 ∧ t.input = bs ∧
        t.stack = s.stack ∧ t.halted = s.halted ∧ t.output = s.output ∧ t.params = s.params ∧ t.stepped = s.stepped) ∧
      (¬ StoreOk a s → exec (.inp a) s = .fault (.memoryOutOfBounds a.word ⟨s.pc, s.output, bs⟩))

/-- The frame of all 22 instructions at once: N, the stack capacity, the model's own `stepped` (log entry 6), every register but the
destination register, and every byte of memory outside the word the instruction stores to are as before. -/
def Obligations.FrameOfEveryInstruction : Prop :=
  ∀ (i : Instr) (s t : State), exec i s = .next t →
    t.mem.size = s.mem.size ∧ t.params = s.params ∧ t.stepped = s.stepped ∧ (∀ r, destReg i ≠ some r → t.reg r = s.reg r) ∧
    (storeAddr i s = none → ∀ k, t.mem.readByte k = s.mem.readByte k) ∧
    ∀ addr, storeAddr i s = some addr → ∀ k, k ≠ 2 * addr.toNat → k ≠ 2 * addr.toNat + 1 →
      t.mem.readByte k = s.mem.readByte k

/-! ## Faults (60_exceptions.md) -/

/-- R202: an opcode word of 22 or more faults before any operand is fetched, and changes no register, memory word, stack entry or
output; nothing else raises UnknownOpcode. -/
def Obligations.UnknownOpcodesFault : Prop :=
  (∀ (s : State) (op : Word), s.Running → s.instrWord 0 = some op → 22 ≤ op.toNat →
    step s = .fault (.unknownOpcode op (s.site s.pc)) ∧ (s.site s.pc).output = s.output ∧
      survives s (step s) = some (s.mem, s.regs, s.stack)) ∧
  ∀ (s : State) op site, step s = .fault (.unknownOpcode op site) →
    s.Running ∧ s.instrWord 0 = some op ∧ 22 ≤ op.toNat ∧ site = s.site s.pc

/-- R203. -/
def Obligations.OnlyPopUnderflows : Prop :=
  (∀ (a : Dst) (s : State), s.stack = [] → exec (.pop a) s = .fault (.stackUnderflow (s.site s.pc))) ∧
  (∀ (s : State) site, step s = .fault (.stackUnderflow site) →
    site.ia = s.pc ∧ s.stack = [] ∧ ∃ a, s.fetchDecode = .ok (.pop a)) ∧
  ∀ s : State, s.stack = [] → exec .ret s = .next { s with pc := s.pc + 1, halted := true }

/-- R204, from the fault back: the address recorded does not exist, and it is that of the first missing operand word of the
instruction whose opcode word is at the pc, of a destination, of an `rmem` read or of a `wmem` write. -/
def Obligations.MemoryOutOfBoundsNamesAMissingAddress : Prop :=
  ∀ (s : State) addr site, step s = .fault (.memoryOutOfBounds addr site) →
    s.Running ∧ site.ia = s.pc ∧ s.mem.size ≤ addr.toNat ∧
      ((∃ (j : Nat) (k : Instr), s.fetchDecode = .error (.missingWord j) ∧ addr = s.wordAddr j ∧
          s.instrWord 0 = some (BitVec.ofNat 16 k.opcode) ∧ 1 ≤ j ∧ j ≤ k.operandWords.length ∧
          ∀ l, l < j → s.instrWord l ≠ none) ∨
        ∃ i, s.fetchDecode = .ok i ∧
          (destination i = some (.mem addr) ∨ (∃ a b, i = .rmem a b ∧ addr = resolve b s) ∨
            ∃ a b, i = .wmem a b ∧ addr = resolve a s))

/-- R205: for every row of the opcode table. -/
def Obligations.IllegalOperandsFault : Prop :=
  ∀ i : Instr, IllegalOperandFaults i.opcode i.operandWords.length

/-- R206. -/
def Obligations.OnlyModDividesByZero : Prop :=
  (∀ (a : Dst) (b c : Src) (s : State), resolve c s = 0 →
    exec (.mod a b c) s = .fault (.divideByZero (s.site s.pc))) ∧
  ∀ (s : State) site, step s = .fault (.divideByZero site) →
    site.ia = s.pc ∧ ∃ a b c, s.fetchDecode = .ok (.mod a b c) ∧ resolve c s = 0

/-- R207. -/
def Obligations.OnlyAFullFiniteStackOverflows : Prop :=
  (∀ (a : Src) (s : State), s.params.stackCapacity = some s.stack.length →
    exec (.push a) s = .fault (.stackOverflow (s.site s.pc)) ∧
    exec (.call a) s = .fault (.stackOverflow (s.site s.pc))) ∧
  ∀ (s : State) site, step s = .fault (.stackOverflow site) →
    site.ia = s.pc ∧ s.params.stackCapacity = some s.stack.length ∧
      ∃ a, s.fetchDecode = .ok (.push a) ∨ s.fetchDecode = .ok (.call a)

/-- R200, R209, R213: a step answers a next state or one of the six faults, never a refusal; a fault comes from an instruction
the loop check let execute, records its address, keeps the output trace, and keeps input consumed, which only an `in` has. -/
def Obligations.StepsGoOnOrFaultPrecisely : Prop :=
  ∀ s : State, (∃ t, step s = .next t) ∨
    ∃ f, step s = .fault f ∧ s.Running ∧ f.site.ia = s.pc ∧ f.site.output = s.output ∧
      (f.site.input = s.input ∨ ∃ a b, s.fetchDecode = .ok (.inp a) ∧ s.input = b :: f.site.input)

/-- R201, R209: the status of a fault is FAULTED with its code, ia and info. -/
def Obligations.FaultCodesAndInfo : Prop :=
  ∀ (site : FaultSite) (w : Word) (j : Nat),
    (Fault.unknownOpcode w site).status = .faulted 1 site.ia [w.toNat] ∧
    (Fault.stackUnderflow site).status = .faulted 2 site.ia [] ∧
    (Fault.memoryOutOfBounds w site).status = .faulted 3 site.ia [w.toNat] ∧
    (Fault.invalidOperand j w site).status = .faulted 4 site.ia [j, w.toNat] ∧
    (Fault.divideByZero site).status = .faulted 5 site.ia [] ∧
    (Fault.stackOverflow site).status = .faulted 6 site.ia []
end

