-- ==== Sys2Proof/Laws/Decode.lean ====
section
/-! SUPPORT. What the decoder answers, shape by shape: an encoding decodes to its instruction, and each rejection comes exactly
where the spec puts it. -/

namespace Sys2Proof

@[simp] theorem Except.ok_bind_eq {ε α β : Type} (a : α) (f : α → Except ε β) : (Except.ok a >>= f) = f a := rfl

@[simp] theorem Except.error_bind_eq {ε α β : Type} (e : ε) (f : α → Except ε β) :
    ((Except.error e : Except ε α) >>= f) = .error e := rfl

theorem Except.bind_eq_ok {ε α β : Type} {x : Except ε α} {f : α → Except ε β} {b : β} :
    (x >>= f) = .ok b ↔ ∃ a, x = .ok a ∧ f a = .ok b := by
  cases x <;> simp

theorem Except.bind_eq_error {ε α β : Type} {x : Except ε α} {f : α → Except ε β} {e : ε} :
    (x >>= f) = .error e ↔ x = .error e ∨ ∃ a, x = .ok a ∧ f a = .error e := by
  cases x <;> simp

/-! ## One operand word -/

theorem regWord_toNat (r : RegIdx) : (BitVec.ofNat 16 (32768 + r.val)).toNat = 32768 + r.val := by
  have := r.isLt
  simp; omega

@[simp] theorem srcOfWord_word {o : Src} (h : o.wf = true) (j : Nat) : srcOfWord j o.word = .ok o := by
  cases o with
  | lit v => simp only [Src.wf, decide_eq_true_eq] at h; simp [srcOfWord, Src.word, h]
  | reg r =>
    have hr : (Src.reg r).word.toNat = 32768 + r.val := regWord_toNat r
    have := r.isLt
    unfold srcOfWord
    rw [if_neg (by omega), dif_pos (by omega)]
    have d : (Src.reg r).word.toNat - 32768 = r.val := by omega
    have e : ∀ h, (⟨(Src.reg r).word.toNat - 32768, h⟩ : RegIdx) = r := fun h => Fin.ext d
    rw [e]

@[simp] theorem dstOfWord_word {o : Dst} (h : o.wf = true) (j : Nat) : dstOfWord j o.word = .ok o := by
  cases o with
  | mem v => simp only [Dst.wf, decide_eq_true_eq] at h; simp [dstOfWord, Dst.word, h]
  | reg r =>
    have hr : (Dst.reg r).word.toNat = 32768 + r.val := regWord_toNat r
    have := r.isLt
    unfold dstOfWord
    rw [if_neg (by omega), dif_pos (by omega)]
    have d : (Dst.reg r).word.toNat - 32768 = r.val := by omega
    have e : ∀ h, (⟨(Dst.reg r).word.toNat - 32768, h⟩ : RegIdx) = r := fun h => Fin.ext d
    rw [e]

theorem srcOfWord_eq_ok {j : Nat} {w : Word} {o : Src} :
    srcOfWord j w = .ok o ↔ o.wf = true ∧ w = o.word := by
  refine ⟨fun h => ?_, fun ⟨hw, e⟩ => e ▸ srcOfWord_word hw j⟩
  simp only [srcOfWord] at h
  split_ifs at h with h₁ h₂
  · cases h
    exact ⟨by simpa [Src.wf] using h₁, rfl⟩
  · cases h
    refine ⟨rfl, BitVec.eq_of_toNat_eq ?_⟩
    rw [Src.word, regWord_toNat]
    simp at h₁ ⊢
    omega

theorem dstOfWord_eq_ok {j : Nat} {w : Word} {o : Dst} :
    dstOfWord j w = .ok o ↔ o.wf = true ∧ w = o.word := by
  refine ⟨fun h => ?_, fun ⟨hw, e⟩ => e ▸ dstOfWord_word hw j⟩
  simp only [dstOfWord] at h
  split_ifs at h with h₁ h₂
  · cases h
    exact ⟨by simpa [Dst.wf] using h₁, rfl⟩
  · cases h
    refine ⟨rfl, BitVec.eq_of_toNat_eq ?_⟩
    rw [Dst.word, regWord_toNat]
    simp at h₁ ⊢
    omega

theorem srcOfWord_illegal {j : Nat} {w : Word} (h : 32776 ≤ w.toNat) :
    srcOfWord j w = .error (.invalidOperand j w) := by
  simp [srcOfWord, show ¬ w.toNat < 32768 by omega, show ¬ w.toNat < 32776 by omega]

theorem dstOfWord_illegal {j : Nat} {w : Word} (h : 32776 ≤ w.toNat) :
    dstOfWord j w = .error (.invalidOperand j w) := by
  simp [dstOfWord, show ¬ w.toNat < 32768 by omega, show ¬ w.toNat < 32776 by omega]

theorem srcOfWord_legal {w : Word} (h : w.toNat < 32776) (j : Nat) : ∃ o, srcOfWord j w = .ok o := by
  simp only [srcOfWord]
  split_ifs
  exacts [⟨_, rfl⟩, ⟨_, rfl⟩]

theorem dstOfWord_legal {w : Word} (h : w.toNat < 32776) (j : Nat) : ∃ o, dstOfWord j w = .ok o := by
  simp only [dstOfWord]
  split_ifs
  exacts [⟨_, rfl⟩, ⟨_, rfl⟩]

theorem srcOfWord_eq_error {j : Nat} {w : Word} {r : Reject} :
    srcOfWord j w = .error r ↔ 32776 ≤ w.toNat ∧ r = .invalidOperand j w := by
  by_cases h : w.toNat < 32776
  · obtain ⟨o, ho⟩ := srcOfWord_legal h j
    simp [ho]; omega
  · simp [srcOfWord_illegal (Nat.le_of_not_lt h), eq_comm]; omega

theorem dstOfWord_eq_error {j : Nat} {w : Word} {r : Reject} :
    dstOfWord j w = .error r ↔ 32776 ≤ w.toNat ∧ r = .invalidOperand j w := by
  by_cases h : w.toNat < 32776
  · obtain ⟨o, ho⟩ := dstOfWord_legal h j
    simp [ho]; omega
  · simp [dstOfWord_illegal (Nat.le_of_not_lt h), eq_comm]; omega

/-! ## The operand words of a row -/

theorem decodeS_eq_ok {mk : Src → Instr} {ws : List Word} {i : Instr} :
    decodeS mk ws = .ok i ↔ ∃ a rest, a.wf = true ∧ ws = a.word :: rest ∧ i = mk a := by
  rcases ws with _ | ⟨a, ws⟩ <;> simp [decodeS, Except.bind_eq_ok, srcOfWord_eq_ok, pure, Except.pure]
  constructor
  · rintro ⟨o, ⟨h, rfl⟩, rfl⟩; exact ⟨o, h, rfl, rfl⟩
  · rintro ⟨o, h, rfl, rfl⟩; exact ⟨o, ⟨h, rfl⟩, rfl⟩

theorem decodeD_eq_ok {mk : Dst → Instr} {ws : List Word} {i : Instr} :
    decodeD mk ws = .ok i ↔ ∃ a rest, a.wf = true ∧ ws = a.word :: rest ∧ i = mk a := by
  rcases ws with _ | ⟨a, ws⟩ <;> simp [decodeD, Except.bind_eq_ok, dstOfWord_eq_ok, pure, Except.pure]
  constructor
  · rintro ⟨o, ⟨h, rfl⟩, rfl⟩; exact ⟨o, h, rfl, rfl⟩
  · rintro ⟨o, h, rfl, rfl⟩; exact ⟨o, ⟨h, rfl⟩, rfl⟩

theorem decodeSS_eq_ok {mk : Src → Src → Instr} {ws : List Word} {i : Instr} : decodeSS mk ws = .ok i ↔
    ∃ a b rest, a.wf = true ∧ b.wf = true ∧ ws = a.word :: b.word :: rest ∧ i = mk a b := by
  rcases ws with _ | ⟨a, _ | ⟨b, ws⟩⟩ <;> simp [decodeSS, Except.bind_eq_ok, srcOfWord_eq_ok, pure, Except.pure]
  constructor
  · rintro ⟨a, ⟨ha, rfl⟩, b, ⟨hb, rfl⟩, rfl⟩; exact ⟨a, ha, b, hb, ⟨rfl, rfl⟩, rfl⟩
  · rintro ⟨a, ha, b, hb, ⟨rfl, rfl⟩, rfl⟩; exact ⟨a, ⟨ha, rfl⟩, b, ⟨hb, rfl⟩, rfl⟩

theorem decodeDS_eq_ok {mk : Dst → Src → Instr} {ws : List Word} {i : Instr} : decodeDS mk ws = .ok i ↔
    ∃ a b rest, a.wf = true ∧ b.wf = true ∧ ws = a.word :: b.word :: rest ∧ i = mk a b := by
  rcases ws with _ | ⟨a, _ | ⟨b, ws⟩⟩ <;>
    simp [decodeDS, Except.bind_eq_ok, srcOfWord_eq_ok, dstOfWord_eq_ok, pure, Except.pure]
  constructor
  · rintro ⟨a, ⟨ha, rfl⟩, b, ⟨hb, rfl⟩, rfl⟩; exact ⟨a, ha, b, hb, ⟨rfl, rfl⟩, rfl⟩
  · rintro ⟨a, ha, b, hb, ⟨rfl, rfl⟩, rfl⟩; exact ⟨a, ⟨ha, rfl⟩, b, ⟨hb, rfl⟩, rfl⟩

theorem decodeDSS_eq_ok {mk : Dst → Src → Src → Instr} {ws : List Word} {i : Instr} : decodeDSS mk ws = .ok i ↔
    ∃ a b c rest, a.wf = true ∧ b.wf = true ∧ c.wf = true ∧ ws = a.word :: b.word :: c.word :: rest ∧ i = mk a b c := by
  rcases ws with _ | ⟨a, _ | ⟨b, _ | ⟨c, ws⟩⟩⟩ <;>
    simp [decodeDSS, Except.bind_eq_ok, srcOfWord_eq_ok, dstOfWord_eq_ok, pure, Except.pure]
  constructor
  · rintro ⟨a, ⟨ha, rfl⟩, b, ⟨hb, rfl⟩, c, ⟨hc, rfl⟩, rfl⟩; exact ⟨a, ha, b, hb, c, hc, ⟨rfl, rfl, rfl⟩, rfl⟩
  · rintro ⟨a, ha, b, hb, c, hc, ⟨rfl, rfl, rfl⟩, rfl⟩; exact ⟨a, ⟨ha, rfl⟩, b, ⟨hb, rfl⟩, c, ⟨hc, rfl⟩, rfl⟩

/-- The first illegal one of the first `k` operand words, the first word being operand `off`. -/
def FirstIllegal (off k : Nat) (ws : List Word) (r : Reject) : Prop :=
  ∃ j w, j < k ∧ ws[j]? = some w ∧ 32776 ≤ w.toNat ∧ (∀ i v, i < j → ws[i]? = some v → v.toNat < 32776) ∧
    r = .invalidOperand (off + j) w

theorem firstIllegal_zero {off : Nat} {ws : List Word} {r : Reject} : ¬ FirstIllegal off 0 ws r := by
  rintro ⟨j, w, hj, -⟩
  exact Nat.not_lt_zero j hj

theorem firstIllegal_cons {off k : Nat} {a : Word} {ws : List Word} {r : Reject} : FirstIllegal off (k + 1) (a :: ws) r ↔
    (32776 ≤ a.toNat ∧ r = .invalidOperand off a) ∨ (a.toNat < 32776 ∧ FirstIllegal (off + 1) k ws r) := by
  constructor
  · rintro ⟨j, w, hj, hw, h, hl, rfl⟩
    cases j with
    | zero => cases hw; exact .inl ⟨h, rfl⟩
    | succ j =>
      refine .inr ⟨hl 0 a j.succ_pos rfl, j, w, Nat.lt_of_succ_lt_succ hj, hw, h, fun i v hi hv => ?_, ?_⟩
      · exact hl (i + 1) v (Nat.succ_lt_succ hi) hv
      · rw [Nat.add_assoc, Nat.add_comm 1]
  · rintro (⟨h, rfl⟩ | ⟨ha, j, w, hj, hw, h, hl, rfl⟩)
    · exact ⟨0, a, k.succ_pos, rfl, h, fun i v hi => absurd hi (Nat.not_lt_zero i), rfl⟩
    · refine ⟨j + 1, w, Nat.succ_lt_succ hj, hw, h, fun i v hi hv => ?_, ?_⟩
      · cases i with
        | zero => cases hv; exact ha
        | succ i => exact hl i v (Nat.lt_of_succ_lt_succ hi) hv
      · rw [Nat.add_assoc, Nat.add_comm 1]

/-- Why `k` operand words are rejected: too few of them, reported at the first missing one (word 0 being the opcode word), or
else the first of them that is illegal (R208). -/
def OperandReject (k : Nat) (ws : List Word) (r : Reject) : Prop :=
  (ws.length < k ∧ r = .missingWord (ws.length + 1)) ∨ (k ≤ ws.length ∧ FirstIllegal 0 k ws r)

theorem operandReject_of_le {k : Nat} {ws : List Word} {r : Reject} (h : k ≤ ws.length) :
    OperandReject k ws r ↔ FirstIllegal 0 k ws r := by
  simp [OperandReject, Nat.not_lt.2 h, h]

theorem exists_src_word {w : Word} : (∃ o : Src, o.wf = true ∧ w = o.word) ↔ w.toNat < 32776 := by
  refine ⟨fun ⟨o, ho, h⟩ => ?_, fun h => ?_⟩
  · by_contra hw
    have := srcOfWord_illegal (j := 0) (Nat.le_of_not_lt hw)
    rw [h, srcOfWord_word ho] at this
    cases this
  · obtain ⟨o, ho⟩ := srcOfWord_legal h 0
    exact ⟨o, srcOfWord_eq_ok.1 ho⟩

theorem exists_dst_word {w : Word} : (∃ o : Dst, o.wf = true ∧ w = o.word) ↔ w.toNat < 32776 := by
  refine ⟨fun ⟨o, ho, h⟩ => ?_, fun h => ?_⟩
  · by_contra hw
    have := dstOfWord_illegal (j := 0) (Nat.le_of_not_lt hw)
    rw [h, dstOfWord_word ho] at this
    cases this
  · obtain ⟨o, ho⟩ := dstOfWord_legal h 0
    exact ⟨o, dstOfWord_eq_ok.1 ho⟩

theorem decodeS_eq_error {mk : Src → Instr} {ws : List Word} {r : Reject} :
    decodeS mk ws = .error r ↔ OperandReject 1 ws r := by
  rcases ws with _ | ⟨a, ws⟩
  · simp [decodeS, OperandReject, eq_comm (b := r)]
  · rw [operandReject_of_le (by simp)]
    simp [decodeS, Except.bind_eq_error, srcOfWord_eq_error, pure,
      Except.pure, firstIllegal_cons, firstIllegal_zero]

theorem decodeD_eq_error {mk : Dst → Instr} {ws : List Word} {r : Reject} :
    decodeD mk ws = .error r ↔ OperandReject 1 ws r := by
  rcases ws with _ | ⟨a, ws⟩
  · simp [decodeD, OperandReject, eq_comm (b := r)]
  · rw [operandReject_of_le (by simp)]
    simp [decodeD, Except.bind_eq_error, dstOfWord_eq_error, pure,
      Except.pure, firstIllegal_cons, firstIllegal_zero]

theorem decodeSS_eq_error {mk : Src → Src → Instr} {ws : List Word} {r : Reject} :
    decodeSS mk ws = .error r ↔ OperandReject 2 ws r := by
  rcases ws with _ | ⟨a, _ | ⟨b, ws⟩⟩
  · simp [decodeSS, OperandReject, eq_comm (b := r)]
  · simp [decodeSS, OperandReject, eq_comm (b := r)]
  · rw [operandReject_of_le (by simp)]
    simp [decodeSS, Except.bind_eq_error, srcOfWord_eq_error, srcOfWord_eq_ok, exists_src_word, pure,
      Except.pure, firstIllegal_cons, firstIllegal_zero]

theorem decodeDS_eq_error {mk : Dst → Src → Instr} {ws : List Word} {r : Reject} :
    decodeDS mk ws = .error r ↔ OperandReject 2 ws r := by
  rcases ws with _ | ⟨a, _ | ⟨b, ws⟩⟩
  · simp [decodeDS, OperandReject, eq_comm (b := r)]
  · simp [decodeDS, OperandReject, eq_comm (b := r)]
  · rw [operandReject_of_le (by simp)]
    simp [decodeDS, Except.bind_eq_error, srcOfWord_eq_error, srcOfWord_eq_ok, dstOfWord_eq_error, dstOfWord_eq_ok, exists_dst_word, pure,
      Except.pure, firstIllegal_cons, firstIllegal_zero]

theorem decodeDSS_eq_error {mk : Dst → Src → Src → Instr} {ws : List Word} {r : Reject} :
    decodeDSS mk ws = .error r ↔ OperandReject 3 ws r := by
  rcases ws with _ | ⟨a, _ | ⟨b, _ | ⟨c, ws⟩⟩⟩
  · simp [decodeDSS, OperandReject, eq_comm (b := r)]
  · simp [decodeDSS, OperandReject, eq_comm (b := r)]
  · simp [decodeDSS, OperandReject, eq_comm (b := r)]
  · rw [operandReject_of_le (by simp)]
    simp [decodeDSS, Except.bind_eq_error, srcOfWord_eq_error, srcOfWord_eq_ok, exists_src_word, dstOfWord_eq_error, dstOfWord_eq_ok, exists_dst_word, pure,
      Except.pure, firstIllegal_cons, firstIllegal_zero]

theorem operandReject_zero {ws : List Word} {r : Reject} : ¬ OperandReject 0 ws r := by
  simp [OperandReject, firstIllegal_zero]

/-- The rejections of a row's words: those of its operand words. -/
theorem decode_row_eq_error (i : Instr) {ws : List Word} {r : Reject} :
    decode (BitVec.ofNat 16 i.opcode :: ws) = .error r ↔ OperandReject i.operandWords.length ws r := by
  cases i <;>
    simp [decode, Instr.opcode, Instr.operandWords, decodeS_eq_error, decodeD_eq_error, decodeSS_eq_error,
      decodeDS_eq_error, decodeDSS_eq_error, operandReject_zero]

/-- An opcode word is that of a row, or unknown (R64, R66). -/
theorem opcode_row_or_unknown (op : Word) :
    (∃ i : Instr, op = BitVec.ofNat 16 i.opcode) ∨ (22 ≤ op.toNat ∧ ∀ ws, decode (op :: ws) = .error (.unknownOpcode op)) := by
  by_cases h : op.toNat < 22
  · left
    have e : op = BitVec.ofNat 16 op.toNat := by simp
    rw [e]
    have row : ∀ n, n < 22 → ∃ i : Instr, i.opcode = n := by
      intro n hn
      interval_cases n
      exacts [⟨.halt, rfl⟩, ⟨.set (.reg 0) (.reg 0), rfl⟩, ⟨.push (.reg 0), rfl⟩, ⟨.pop (.reg 0), rfl⟩,
        ⟨.eq (.reg 0) (.reg 0) (.reg 0), rfl⟩, ⟨.gt (.reg 0) (.reg 0) (.reg 0), rfl⟩, ⟨.jmp (.reg 0), rfl⟩,
        ⟨.jt (.reg 0) (.reg 0), rfl⟩, ⟨.jf (.reg 0) (.reg 0), rfl⟩, ⟨.add (.reg 0) (.reg 0) (.reg 0), rfl⟩,
        ⟨.mult (.reg 0) (.reg 0) (.reg 0), rfl⟩, ⟨.mod (.reg 0) (.reg 0) (.reg 0), rfl⟩,
        ⟨.and (.reg 0) (.reg 0) (.reg 0), rfl⟩, ⟨.or (.reg 0) (.reg 0) (.reg 0), rfl⟩, ⟨.not (.reg 0) (.reg 0), rfl⟩,
        ⟨.rmem (.reg 0) (.reg 0), rfl⟩, ⟨.wmem (.reg 0) (.reg 0), rfl⟩, ⟨.call (.reg 0), rfl⟩, ⟨.ret, rfl⟩,
        ⟨.out (.reg 0), rfl⟩, ⟨.inp (.reg 0), rfl⟩, ⟨.noop, rfl⟩]
    obtain ⟨i, hi⟩ := row op.toNat h
    exact ⟨i, by rw [hi]⟩
  · right
    refine ⟨Nat.le_of_not_lt h, fun ws => ?_⟩
    simp only [decode]
    split <;> first | omega | rfl

/-- Every rejection of a list of words: no opcode word, an unknown one, or the operand words of a row. -/
theorem decode_eq_error {ws : List Word} {r : Reject} : decode ws = .error r ↔
    (ws = [] ∧ r = .missingWord 0) ∨
    (∃ op rest, ws = op :: rest ∧ 22 ≤ op.toNat ∧ r = .unknownOpcode op) ∨
    ∃ (i : Instr) (rest : List Word), ws = BitVec.ofNat 16 i.opcode :: rest ∧ OperandReject i.operandWords.length rest r := by
  have small : ∀ i : Instr, (BitVec.ofNat 16 i.opcode).toNat < 22 := by intro i; cases i <;> simp [Instr.opcode]
  rcases ws with _ | ⟨op, rest⟩
  · refine ⟨fun h => .inl ⟨rfl, (Except.error.inj h).symm⟩, ?_⟩
    rintro (⟨-, rfl⟩ | ⟨op, rest, h, -⟩ | ⟨i, rest, h, -⟩)
    · rfl
    · cases h
    · cases h
  · rcases opcode_row_or_unknown op with ⟨i, rfl⟩ | ⟨h, hu⟩
    · rw [decode_row_eq_error]
      refine ⟨fun h => .inr (.inr ⟨i, rest, rfl, h⟩), ?_⟩
      rintro (⟨h, -⟩ | ⟨op, rest', h, ho, -⟩ | ⟨i', rest', h, ho⟩)
      · cases h
      · have := small i
        obtain ⟨rfl, rfl⟩ := List.cons.inj h
        omega
      · obtain ⟨h₁, rfl⟩ := List.cons.inj h
        rwa [← decode_row_eq_error, ← h₁, decode_row_eq_error] at ho
    · rw [hu]
      constructor
      · intro e
        exact .inr (.inl ⟨op, rest, rfl, h, (Except.error.inj e).symm⟩)
      · rintro (⟨e, -⟩ | ⟨op', rest', e, -, rfl⟩ | ⟨i', rest', e, -⟩)
        · cases e
        · rw [(List.cons.inj e).1]
        · have := small i'
          rw [← (List.cons.inj e).1] at this
          omega

end Sys2Proof
end

