-- ==== Sys2Proof/Laws/Memory.lean ====
section
/-! SUPPORT. Memory: a read after a write, what a write leaves alone, that every operation keeps the canonical form, that
canonical memories are determined by what they read, and what an image reads as. -/

namespace Sys2Proof.Machine

/-! ## Cells -/

@[simp] theorem readCell_insertCell_same (k : Nat) (b : Byte) (cs : List Host.Cell) :
    readCell k (insertCell k b cs) = b := by
  induction cs with
  | nil => simp [insertCell, readCell]
  | cons c cs ih =>
    obtain ⟨a, c⟩ := c
    simp only [insertCell]
    split_ifs with h₁ h₂
    · simp [readCell]
    · simp [readCell]
    · simp [readCell, ih, Ne.symm h₂]

theorem readCell_insertCell_other {k j : Nat} (h : j ≠ k) (b : Byte) (cs : List Host.Cell) :
    readCell j (insertCell k b cs) = readCell j cs := by
  induction cs with
  | nil => simp [insertCell, readCell, Ne.symm h]
  | cons c cs ih =>
    obtain ⟨a, c⟩ := c
    simp only [insertCell]
    split_ifs with h₁ h₂
    · simp [readCell, Ne.symm h]
    · subst h₂; simp [readCell, Ne.symm h]
    · simp [readCell, ih]

@[simp] theorem readCell_filter_same (k : Nat) (cs : List Host.Cell) :
    readCell k (cs.filter (fun c => c.1 != k)) = 0 := by
  induction cs with
  | nil => rfl
  | cons c cs ih =>
    by_cases h : c.1 = k
    · simp [h, ih]
    · simp [h, readCell, ih]

theorem readCell_filter_other {k j : Nat} (h : j ≠ k) (cs : List Host.Cell) :
    readCell j (cs.filter (fun c => c.1 != k)) = readCell j cs := by
  induction cs with
  | nil => rfl
  | cons c cs ih =>
    by_cases hk : c.1 = k
    · simp [hk, readCell, Ne.symm h, ih]
    · simp [hk, readCell, ih]

@[simp] theorem readCell_writeCell_same (k : Nat) (b : Byte) (cs : List Host.Cell) :
    readCell k (writeCell k b cs) = b := by
  simp only [writeCell]
  split_ifs with h <;> simp [h]

theorem readCell_writeCell_other {k j : Nat} (h : j ≠ k) (b : Byte) (cs : List Host.Cell) :
    readCell j (writeCell k b cs) = readCell j cs := by
  simp only [writeCell]
  split_ifs
  · exact readCell_filter_other h cs
  · exact readCell_insertCell_other h b cs

theorem mem_insertCell {k : Nat} {b : Byte} {c : Host.Cell} {cs : List Host.Cell} (h : c ∈ insertCell k b cs) :
    c = (k, b) ∨ c ∈ cs := by
  induction cs with
  | nil => simpa [insertCell] using h
  | cons d cs ih =>
    simp only [insertCell] at h
    split_ifs at h
    · simpa using h
    · rcases List.mem_cons.1 h with h | h
      · exact .inl h
      · exact .inr (.tail _ h)
    · rcases List.mem_cons.1 h with h | h
      · exact .inr (h ▸ .head _)
      · exact (ih h).imp id (.tail _)

theorem pairwise_insertCell (k : Nat) (b : Byte) {cs : List Host.Cell} (h : cs.Pairwise (fun c d => c.1 < d.1)) :
    (insertCell k b cs).Pairwise (fun c d => c.1 < d.1) := by
  induction cs with
  | nil => simp [insertCell]
  | cons d cs ih =>
    obtain ⟨hd, hcs⟩ := List.pairwise_cons.1 h
    simp only [insertCell]
    split_ifs with h₁ h₂
    · refine List.pairwise_cons.2 ⟨fun c hc => ?_, h⟩
      rcases List.mem_cons.1 hc with rfl | hc
      · exact h₁
      · exact h₁.trans (hd c hc)
    · exact List.pairwise_cons.2 ⟨fun c hc => h₂ ▸ hd c hc, hcs⟩
    · refine List.pairwise_cons.2 ⟨fun c hc => ?_, ih hcs⟩
      rcases mem_insertCell hc with rfl | hc
      · exact lt_of_le_of_ne (Nat.le_of_not_lt h₁) (Ne.symm h₂)
      · exact hd c hc

/-- A listed byte is what its address reads as, in a rising list. -/
theorem readCell_of_mem {cs : List Host.Cell} (h : cs.Pairwise (fun c d => c.1 < d.1)) {c : Host.Cell} (hc : c ∈ cs) :
    readCell c.1 cs = c.2 := by
  induction cs with
  | nil => cases hc
  | cons d cs ih =>
    obtain ⟨hd, hcs⟩ := List.pairwise_cons.1 h
    rcases List.mem_cons.1 hc with rfl | hc
    · simp [readCell]
    · simp [readCell, (hd c hc).ne, ih hcs hc]

/-- An address that reads as something else than 0 is listed. -/
theorem mem_of_readCell {k : Nat} {cs : List Host.Cell} (h : readCell k cs ≠ 0) : (k, readCell k cs) ∈ cs := by
  induction cs with
  | nil => simp [readCell] at h
  | cons d cs ih =>
    obtain ⟨a, b⟩ := d
    by_cases ha : a = k
    · subst ha; simp [readCell]
    · simp only [readCell, if_neg ha] at h ⊢
      exact .tail _ (ih h)

/-- Below the first listed address nothing is listed. -/
theorem readCell_eq_zero {k : Nat} {cs : List Host.Cell} (h : ∀ c ∈ cs, k < c.1) : readCell k cs = 0 := by
  by_contra hne
  exact absurd (h _ (mem_of_readCell hne)) (lt_irrefl k)

/-! ## Bytes and words -/

@[simp] theorem Memory.writeByte_size (m : Memory) (k : Nat) (b : Byte) : (m.writeByte k b).size = m.size := rfl

@[simp] theorem Memory.readByte_writeByte_same (m : Memory) (k : Nat) (b : Byte) :
    (m.writeByte k b).readByte k = b := readCell_writeCell_same ..

theorem Memory.readByte_writeByte_other (m : Memory) {k j : Nat} (h : j ≠ k) (b : Byte) :
    (m.writeByte k b).readByte j = m.readByte j := readCell_writeCell_other h ..

/-- Little-endian: the first byte is bits 7:0, the second bits 15:8 (R33). -/
theorem wordOfBytes_toNat (lo hi : Byte) : (wordOfBytes lo hi).toNat = lo.toNat + 256 * hi.toNat := by
  have h : (wordOfBytes lo hi).toNat = hi.toNat <<< 8 ||| lo.toNat := BitVec.toNat_append hi lo
  rw [h, Nat.shiftLeft_eq, Nat.mul_comm, ← Nat.two_pow_add_eq_or_of_lt lo.isLt]
  omega

theorem wordOfBytes_extract (w : Word) : wordOfBytes (w.extractLsb' 0 8) (w.extractLsb' 8 8) = w := by
  have := w.isLt
  refine BitVec.eq_of_toNat_eq ?_
  simp only [wordOfBytes_toNat, BitVec.extractLsb'_toNat, Nat.shiftRight_eq_div_pow]
  omega

@[simp] theorem Memory.setWord_size (m : Memory) (a : Nat) (v : Word) : (m.setWord a v).size = m.size := rfl

theorem Memory.readByte_setWord_other (m : Memory) {a k : Nat} (h₀ : k ≠ 2 * a) (h₁ : k ≠ 2 * a + 1) (v : Word) :
    (m.setWord a v).readByte k = m.readByte k := by
  simp [Memory.setWord, Memory.readByte_writeByte_other, h₀, h₁]

@[simp] theorem Memory.getWord_setWord_same (m : Memory) (a : Nat) (v : Word) : (m.setWord a v).getWord a = v := by
  simp only [Memory.getWord, Memory.setWord, Memory.readByte_writeByte_same]
  rw [Memory.readByte_writeByte_other _ (by omega), Memory.readByte_writeByte_same, wordOfBytes_extract]

theorem Memory.getWord_setWord_other (m : Memory) {a b : Nat} (h : b ≠ a) (v : Word) :
    (m.setWord a v).getWord b = m.getWord b := by
  simp only [Memory.getWord]
  rw [m.readByte_setWord_other (by omega) (by omega), m.readByte_setWord_other (by omega) (by omega)]

theorem Memory.read_eq_some {m : Memory} {a : Nat} {v : Word} :
    m.read a = some v ↔ a < m.size ∧ m.getWord a = v := by
  simp only [Memory.read]; split_ifs with h <;> simp [h]

theorem Memory.read_eq_none {m : Memory} {a : Nat} : m.read a = none ↔ m.size ≤ a := by
  simp only [Memory.read]; split_ifs with h <;> simp <;> omega

theorem Memory.write_eq_some {m n : Memory} {a : Nat} {v : Word} :
    m.write a v = some n ↔ a < m.size ∧ n = m.setWord a v := by
  simp only [Memory.write]; split_ifs with h <;> simp [h, eq_comm]

theorem Memory.write_eq_none {m : Memory} {a : Nat} {v : Word} : m.write a v = none ↔ m.size ≤ a := by
  simp only [Memory.write]; split_ifs with h <;> simp <;> omega

/-! ## The canonical form -/

theorem Memory.wf_writeByte {m : Memory} (h : m.wf) {k : Nat} (hk : k < 2 * m.size) (b : Byte) :
    (m.writeByte k b).wf := by
  obtain ⟨hs, hp, hc⟩ := h
  simp only [Memory.wf, Memory.writeByte, writeCell]
  split_ifs with hb
  · exact ⟨hs, hp.filter _, fun c hm => hc c (List.mem_of_mem_filter hm)⟩
  · refine ⟨hs, pairwise_insertCell k b hp, fun c hm => ?_⟩
    rcases mem_insertCell hm with rfl | hm
    · exact ⟨hk, hb⟩
    · exact hc c hm

theorem Memory.wf_setWord {m : Memory} (h : m.wf) {a : Nat} (ha : a < m.size) (v : Word) : (m.setWord a v).wf :=
  Memory.wf_writeByte (Memory.wf_writeByte h (by omega) _) (by simp; omega) _

theorem Memory.wf_write {m n : Memory} (h : m.wf) {a : Nat} {v : Word} (hw : m.write a v = some n) : n.wf := by
  obtain ⟨ha, rfl⟩ := Memory.write_eq_some.1 hw
  exact Memory.wf_setWord h ha v

/-! ## Images -/

theorem mem_cellsOfBytes {k : Nat} {bs : List Byte} {c : Host.Cell} (h : c ∈ cellsOfBytes k bs) :
    k ≤ c.1 ∧ c.1 < k + bs.length ∧ c.2 ≠ 0 := by
  induction bs generalizing k with
  | nil => simp [cellsOfBytes] at h
  | cons b bs ih =>
    have up : c ∈ cellsOfBytes (k + 1) bs → k ≤ c.1 ∧ c.1 < k + (b :: bs).length ∧ c.2 ≠ 0 := fun h => by
      obtain ⟨h₁, h₂, h₃⟩ := ih h
      exact ⟨by omega, by simp only [List.length_cons]; omega, h₃⟩
    simp only [cellsOfBytes] at h
    split_ifs at h with hb
    · exact up h
    · rcases List.mem_cons.1 h with rfl | h
      · exact ⟨le_rfl, by simp, hb⟩
      · exact up h

theorem pairwise_cellsOfBytes (k : Nat) (bs : List Byte) :
    (cellsOfBytes k bs).Pairwise (fun c d => c.1 < d.1) := by
  induction bs generalizing k with
  | nil => simp [cellsOfBytes]
  | cons b bs ih =>
    simp only [cellsOfBytes]
    split_ifs
    · exact ih _
    · exact List.pairwise_cons.2 ⟨fun c hc => (mem_cellsOfBytes hc).1, ih _⟩

theorem readCell_cellsOfBytes (k j : Nat) (bs : List Byte) :
    readCell (k + j) (cellsOfBytes k bs) = bs[j]?.getD 0 := by
  induction bs generalizing k j with
  | nil => simp [cellsOfBytes, readCell]
  | cons b bs ih =>
    cases j with
    | zero =>
      simp only [cellsOfBytes]
      split_ifs with hb
      · subst hb
        exact readCell_eq_zero fun c hc => (mem_cellsOfBytes hc).1
      · simp [readCell]
    | succ j =>
      have hj : k + (j + 1) = k + 1 + j := by omega
      simp only [cellsOfBytes]
      split_ifs with hb
      · rw [hj, ih]; simp
      · rw [hj, readCell, if_neg (by omega), ih]; simp

theorem flatMap_bytesOfWord_length (ws : List Word) : (ws.flatMap bytesOfWord).length = 2 * ws.length := by
  induction ws with
  | nil => rfl
  | cons w ws ih => simp [bytesOfWord] at ih ⊢; omega

theorem Memory.wf_ofImage {image : List Word} (h : image.length ≤ 65536) : (Memory.ofImage image).wf := by
  refine ⟨h, pairwise_cellsOfBytes _ _, fun c hc => ?_⟩
  obtain ⟨-, h₂, h₃⟩ := mem_cellsOfBytes hc
  rw [flatMap_bytesOfWord_length, Nat.zero_add] at h₂
  exact ⟨h₂, h₃⟩

/-- The bytes of word `j` of a list of words. -/
theorem getElem?_flatMap_bytesOfWord (ws : List Word) (j : Nat) :
    (ws.flatMap bytesOfWord)[2 * j]? = ws[j]?.map (fun w => w.extractLsb' 0 8) ∧
      (ws.flatMap bytesOfWord)[2 * j + 1]? = ws[j]?.map (fun w => w.extractLsb' 8 8) := by
  induction ws generalizing j with
  | nil => simp
  | cons w ws ih =>
    cases j with
    | zero => simp [bytesOfWord]
    | succ j => simpa [bytesOfWord, Nat.mul_add] using ih j

/-- An image reads back word by word (R37). -/
theorem Memory.read_ofImage (image : List Word) (a : Nat) : (Memory.ofImage image).read a = image[a]? := by
  by_cases h : a < image.length
  · obtain ⟨h₁, h₂⟩ := getElem?_flatMap_bytesOfWord image a
    have r := readCell_cellsOfBytes 0
    simp only [Nat.zero_add] at r
    rw [List.getElem?_eq_getElem h, Memory.read_eq_some]
    refine ⟨h, ?_⟩
    simp only [Memory.getWord, Memory.readByte, Memory.ofImage, r, h₁, h₂, List.getElem?_eq_getElem h, Option.map_some,
      Option.getD_some, wordOfBytes_extract]
  · rw [List.getElem?_eq_none (by omega), Memory.read_eq_none]
    simpa [Memory.ofImage] using h

end Sys2Proof.Machine
end

