-- ==== Sys2Proof/Laws/State.lean ====
section
/-! SUPPORT. One lemma per field per update of the state, and what a register read gives after each update. -/

namespace Sys2Proof.Machine

variable (s : State)

@[simp] theorem State.setMem_params (m : Memory) : (s.setMem m).params = s.params := rfl
@[simp] theorem State.setMem_mem (m : Memory) : (s.setMem m).mem = m := rfl
@[simp] theorem State.setMem_regs (m : Memory) : (s.setMem m).regs = s.regs := rfl
@[simp] theorem State.setMem_stack (m : Memory) : (s.setMem m).stack = s.stack := rfl
@[simp] theorem State.setMem_pc (m : Memory) : (s.setMem m).pc = s.pc := rfl
@[simp] theorem State.setMem_halted (m : Memory) : (s.setMem m).halted = s.halted := rfl
@[simp] theorem State.setMem_input (m : Memory) : (s.setMem m).input = s.input := rfl
@[simp] theorem State.setMem_output (m : Memory) : (s.setMem m).output = s.output := rfl
@[simp] theorem State.setMem_stepped (m : Memory) : (s.setMem m).stepped = s.stepped := rfl

@[simp] theorem State.setReg_params (r : RegIdx) (v : Word) : (s.setReg r v).params = s.params := rfl
@[simp] theorem State.setReg_mem (r : RegIdx) (v : Word) : (s.setReg r v).mem = s.mem := rfl
@[simp] theorem State.setReg_regs (r : RegIdx) (v : Word) : (s.setReg r v).regs = s.regs.set r.val v r.isLt := rfl
@[simp] theorem State.setReg_stack (r : RegIdx) (v : Word) : (s.setReg r v).stack = s.stack := rfl
@[simp] theorem State.setReg_pc (r : RegIdx) (v : Word) : (s.setReg r v).pc = s.pc := rfl
@[simp] theorem State.setReg_halted (r : RegIdx) (v : Word) : (s.setReg r v).halted = s.halted := rfl
@[simp] theorem State.setReg_input (r : RegIdx) (v : Word) : (s.setReg r v).input = s.input := rfl
@[simp] theorem State.setReg_output (r : RegIdx) (v : Word) : (s.setReg r v).output = s.output := rfl
@[simp] theorem State.setReg_stepped (r : RegIdx) (v : Word) : (s.setReg r v).stepped = s.stepped := rfl

@[simp] theorem State.setStack_params (l : List Word) : (s.setStack l).params = s.params := rfl
@[simp] theorem State.setStack_mem (l : List Word) : (s.setStack l).mem = s.mem := rfl
@[simp] theorem State.setStack_regs (l : List Word) : (s.setStack l).regs = s.regs := rfl
@[simp] theorem State.setStack_stack (l : List Word) : (s.setStack l).stack = l := rfl
@[simp] theorem State.setStack_pc (l : List Word) : (s.setStack l).pc = s.pc := rfl
@[simp] theorem State.setStack_halted (l : List Word) : (s.setStack l).halted = s.halted := rfl
@[simp] theorem State.setStack_input (l : List Word) : (s.setStack l).input = s.input := rfl
@[simp] theorem State.setStack_output (l : List Word) : (s.setStack l).output = s.output := rfl
@[simp] theorem State.setStack_stepped (l : List Word) : (s.setStack l).stepped = s.stepped := rfl

@[simp] theorem State.jump_params (a : Word) : (s.jump a).params = s.params := rfl
@[simp] theorem State.jump_mem (a : Word) : (s.jump a).mem = s.mem := rfl
@[simp] theorem State.jump_regs (a : Word) : (s.jump a).regs = s.regs := rfl
@[simp] theorem State.jump_stack (a : Word) : (s.jump a).stack = s.stack := rfl
@[simp] theorem State.jump_pc (a : Word) : (s.jump a).pc = a := rfl
@[simp] theorem State.jump_halted (a : Word) : (s.jump a).halted = s.halted := rfl
@[simp] theorem State.jump_input (a : Word) : (s.jump a).input = s.input := rfl
@[simp] theorem State.jump_output (a : Word) : (s.jump a).output = s.output := rfl
@[simp] theorem State.jump_stepped (a : Word) : (s.jump a).stepped = s.stepped := rfl

@[simp] theorem State.advance_params (n : Nat) : (s.advance n).params = s.params := rfl
@[simp] theorem State.advance_mem (n : Nat) : (s.advance n).mem = s.mem := rfl
@[simp] theorem State.advance_regs (n : Nat) : (s.advance n).regs = s.regs := rfl
@[simp] theorem State.advance_stack (n : Nat) : (s.advance n).stack = s.stack := rfl
@[simp] theorem State.advance_pc (n : Nat) : (s.advance n).pc = s.pc + BitVec.ofNat 16 n := rfl
@[simp] theorem State.advance_halted (n : Nat) : (s.advance n).halted = s.halted := rfl
@[simp] theorem State.advance_input (n : Nat) : (s.advance n).input = s.input := rfl
@[simp] theorem State.advance_output (n : Nat) : (s.advance n).output = s.output := rfl
@[simp] theorem State.advance_stepped (n : Nat) : (s.advance n).stepped = s.stepped := rfl

@[simp] theorem State.setInput_params (l : List Byte) : (s.setInput l).params = s.params := rfl
@[simp] theorem State.setInput_mem (l : List Byte) : (s.setInput l).mem = s.mem := rfl
@[simp] theorem State.setInput_regs (l : List Byte) : (s.setInput l).regs = s.regs := rfl
@[simp] theorem State.setInput_stack (l : List Byte) : (s.setInput l).stack = s.stack := rfl
@[simp] theorem State.setInput_pc (l : List Byte) : (s.setInput l).pc = s.pc := rfl
@[simp] theorem State.setInput_halted (l : List Byte) : (s.setInput l).halted = s.halted := rfl
@[simp] theorem State.setInput_input (l : List Byte) : (s.setInput l).input = l := rfl
@[simp] theorem State.setInput_output (l : List Byte) : (s.setInput l).output = s.output := rfl
@[simp] theorem State.setInput_stepped (l : List Byte) : (s.setInput l).stepped = s.stepped := rfl

@[simp] theorem State.setOutput_params (l : List Word) : (s.setOutput l).params = s.params := rfl
@[simp] theorem State.setOutput_mem (l : List Word) : (s.setOutput l).mem = s.mem := rfl
@[simp] theorem State.setOutput_regs (l : List Word) : (s.setOutput l).regs = s.regs := rfl
@[simp] theorem State.setOutput_stack (l : List Word) : (s.setOutput l).stack = s.stack := rfl
@[simp] theorem State.setOutput_pc (l : List Word) : (s.setOutput l).pc = s.pc := rfl
@[simp] theorem State.setOutput_halted (l : List Word) : (s.setOutput l).halted = s.halted := rfl
@[simp] theorem State.setOutput_input (l : List Word) : (s.setOutput l).input = s.input := rfl
@[simp] theorem State.setOutput_output (l : List Word) : (s.setOutput l).output = l := rfl
@[simp] theorem State.setOutput_stepped (l : List Word) : (s.setOutput l).stepped = s.stepped := rfl

@[simp] theorem State.setHalted_params : (s.setHalted).params = s.params := rfl
@[simp] theorem State.setHalted_mem : (s.setHalted).mem = s.mem := rfl
@[simp] theorem State.setHalted_regs : (s.setHalted).regs = s.regs := rfl
@[simp] theorem State.setHalted_stack : (s.setHalted).stack = s.stack := rfl
@[simp] theorem State.setHalted_pc : (s.setHalted).pc = s.pc := rfl
@[simp] theorem State.setHalted_halted : (s.setHalted).halted = true := rfl
@[simp] theorem State.setHalted_input : (s.setHalted).input = s.input := rfl
@[simp] theorem State.setHalted_output : (s.setHalted).output = s.output := rfl
@[simp] theorem State.setHalted_stepped : (s.setHalted).stepped = s.stepped := rfl

@[simp] theorem State.beginStep_params : s.beginStep.params = s.params := rfl
@[simp] theorem State.beginStep_mem : s.beginStep.mem = s.mem := rfl
@[simp] theorem State.beginStep_regs : s.beginStep.regs = s.regs := rfl
@[simp] theorem State.beginStep_stack : s.beginStep.stack = s.stack := rfl
@[simp] theorem State.beginStep_pc : s.beginStep.pc = s.pc := rfl
@[simp] theorem State.beginStep_halted : s.beginStep.halted = s.halted := rfl
@[simp] theorem State.beginStep_input : s.beginStep.input = s.input := rfl
@[simp] theorem State.beginStep_output : s.beginStep.output = s.output := rfl
@[simp] theorem State.beginStep_stepped : s.beginStep.stepped = true := rfl

@[simp] theorem State.setMem_reg (m : Memory) (q : RegIdx) : (s.setMem m).reg q = s.reg q := rfl
@[simp] theorem State.setStack_reg (l : List Word) (q : RegIdx) : (s.setStack l).reg q = s.reg q := rfl
@[simp] theorem State.jump_reg (a : Word) (q : RegIdx) : (s.jump a).reg q = s.reg q := rfl
@[simp] theorem State.advance_reg (n : Nat) (q : RegIdx) : (s.advance n).reg q = s.reg q := rfl
@[simp] theorem State.setInput_reg (l : List Byte) (q : RegIdx) : (s.setInput l).reg q = s.reg q := rfl
@[simp] theorem State.setOutput_reg (l : List Word) (q : RegIdx) : (s.setOutput l).reg q = s.reg q := rfl
@[simp] theorem State.setHalted_reg (q : RegIdx) : (s.setHalted).reg q = s.reg q := rfl
@[simp] theorem State.beginStep_reg (q : RegIdx) : s.beginStep.reg q = s.reg q := rfl

@[simp] theorem resolve_beginStep (o : Src) : resolve o s.beginStep = resolve o s := by cases o <;> rfl

/-- A step that is not the first changes nothing by beginning. -/
theorem State.beginStep_of_stepped {s : State} (h : s.stepped = true) : s.beginStep = s := by
  cases s; cases h; rfl

@[simp] theorem State.setReg_reg_same (r : RegIdx) (v : Word) : (s.setReg r v).reg r = v := by
  simp [State.reg]

theorem State.setReg_reg_other {r q : RegIdx} (h : q ≠ r) (v : Word) : (s.setReg r v).reg q = s.reg q := by
  have : r.val ≠ q.val := fun e => h (Fin.ext e.symm)
  simp [State.reg, this]

/-- `emit` and `supplyInput` are the updates of the port streams. -/
theorem State.emit_eq (v : Word) : s.emit v = s.setOutput (s.output ++ [v]) := rfl

theorem State.supplyInput_eq (bs : List Byte) : s.supplyInput bs = s.setInput (s.input ++ bs) := rfl

@[simp] theorem State.site_ia (ia : Word) : (s.site ia).ia = ia := rfl
@[simp] theorem State.site_output (ia : Word) : (s.site ia).output = s.output := rfl
@[simp] theorem State.site_input (ia : Word) : (s.site ia).input = s.input := rfl

/-- What a fault records depends on the ports alone. -/
theorem State.site_congr {s t : State} (ho : t.output = s.output) (hi : t.input = s.input) (ia : Word) :
    t.site ia = s.site ia := by
  simp [State.site, ho, hi]

end Sys2Proof.Machine
end

