-- ==== Sys2Proof/Laws/Ops.lean ====
section
/-! SUPPORT. One lemma per shared operation, saying everything it can answer. -/

namespace Sys2Proof.Machine

variable {s t : State} {ia addr v : Word}

@[simp] theorem raise_ne_next (f : FaultSite → Fault) : raise ia f s ≠ .next t := by simp [raise]

@[simp] theorem raise_ne_refused (f : FaultSite → Fault) (r : Refusal) : raise ia f s ≠ .refused r := by simp [raise]

/-! ## memWrite, store -/

theorem memWrite_eq_next : memWrite ia addr v s = .next t ↔
    addr.toNat < s.mem.size ∧ t = s.setMem (s.mem.setWord addr.toNat v) := by
  by_cases h : addr.toNat < s.mem.size
  · simp [memWrite, Memory.write, h, eq_comm]
  · simp [memWrite, Memory.write, h]

theorem memWrite_of_lt (h : addr.toNat < s.mem.size) :
    memWrite ia addr v s = .next (s.setMem (s.mem.setWord addr.toNat v)) := memWrite_eq_next.2 ⟨h, rfl⟩

theorem memWrite_of_ge (h : s.mem.size ≤ addr.toNat) :
    memWrite ia addr v s = .fault (.memoryOutOfBounds addr (s.site ia)) := by
  simp [memWrite, Memory.write, Nat.not_lt.2 h, raise]

@[simp] theorem store_reg (r : RegIdx) : store ia (.reg r) v s = .next (s.setReg r v) := rfl

@[simp] theorem store_mem : store ia (.mem addr) v s = memWrite ia addr v s := rfl

/-- Store answers the register written, or the memory word written where it exists, or the one fault. -/
theorem store_cases (ia : Word) (d : Dst) (v : Word) (s : State) :
    (∃ r, d = .reg r ∧ store ia d v s = .next (s.setReg r v)) ∨
    (∃ a, d = .mem a ∧ a.toNat < s.mem.size ∧ store ia d v s = .next (s.setMem (s.mem.setWord a.toNat v))) ∨
    ∃ a, d = .mem a ∧ s.mem.size ≤ a.toNat ∧ store ia d v s = .fault (.memoryOutOfBounds a (s.site ia)) := by
  cases d with
  | reg r => exact .inl ⟨r, rfl, rfl⟩
  | mem a =>
    by_cases h : a.toNat < s.mem.size
    · exact .inr (.inl ⟨a, rfl, h, memWrite_of_lt h⟩)
    · exact .inr (.inr ⟨a, rfl, Nat.le_of_not_lt h, memWrite_of_ge (Nat.le_of_not_lt h)⟩)

theorem store_eq_next {d : Dst} : store ia d v s = .next t ↔
    (∃ r, d = .reg r ∧ t = s.setReg r v) ∨
      ∃ a, d = .mem a ∧ a.toNat < s.mem.size ∧ t = s.setMem (s.mem.setWord a.toNat v) := by
  cases d with
  | reg r => simp [eq_comm]
  | mem a => simp [memWrite_eq_next]

theorem memWrite_eq_fault {f : Fault} : memWrite ia addr v s = .fault f ↔
    s.mem.size ≤ addr.toNat ∧ f = .memoryOutOfBounds addr (s.site ia) := by
  by_cases h : addr.toNat < s.mem.size
  · simp [memWrite_of_lt h, Nat.not_le.2 h]
  · simp [memWrite_of_ge (Nat.le_of_not_lt h), Nat.le_of_not_lt h, eq_comm]

theorem store_eq_fault {d : Dst} {f : Fault} : store ia d v s = .fault f ↔
    ∃ a, d = .mem a ∧ s.mem.size ≤ a.toNat ∧ f = .memoryOutOfBounds a (s.site ia) := by
  cases d with
  | reg r => simp
  | mem a => simp [memWrite_eq_fault]

@[simp] theorem memWrite_ne_refused (r : Refusal) : memWrite ia addr v s ≠ .refused r := by
  simp only [memWrite]; split <;> simp

@[simp] theorem store_ne_refused (d : Dst) (r : Refusal) : store ia d v s ≠ .refused r := by
  cases d <;> simp

/-! ## push, pop, inByte -/

theorem stackFull_iff : s.stackFull = true ↔ s.params.stackCapacity = some s.stack.length := by
  simp [State.stackFull]

theorem push_of_full (h : s.params.stackCapacity = some s.stack.length) :
    push ia v s = .fault (.stackOverflow (s.site ia)) := by
  simp [push, State.stackFull, h, raise]

theorem push_of_room (h : s.params.stackCapacity ≠ some s.stack.length) :
    push ia v s = .next (s.setStack (s.stack ++ [v])) := by
  simp [push, State.stackFull, h]

theorem push_eq_next : push ia v s = .next t ↔
    s.params.stackCapacity ≠ some s.stack.length ∧ t = s.setStack (s.stack ++ [v]) := by
  by_cases h : s.params.stackCapacity = some s.stack.length
  · simp [push_of_full h, h]
  · simp [push_of_room h, h, eq_comm]

theorem push_eq_fault {f : Fault} : push ia v s = .fault f ↔
    s.params.stackCapacity = some s.stack.length ∧ f = .stackOverflow (s.site ia) := by
  by_cases h : s.params.stackCapacity = some s.stack.length
  · simp [push_of_full h, h, eq_comm]
  · simp [push_of_room h, h]

theorem pop_of_nil (h : s.stack = []) : s.pop = none := by simp [State.pop, h]

theorem pop_of_concat {l : List Word} (h : s.stack = l ++ [v]) : s.pop = some (v, s.setStack l) := by
  simp [State.pop, h]

theorem pop_eq_none : s.pop = none ↔ s.stack = [] := by
  rcases List.eq_nil_or_concat' s.stack with h | ⟨l, v, h⟩
  · simp [pop_of_nil h, h]
  · simp [pop_of_concat h, h]

theorem pop_eq_some : s.pop = some (v, t) ↔ ∃ l, s.stack = l ++ [v] ∧ t = s.setStack l := by
  rcases List.eq_nil_or_concat' s.stack with h | ⟨l, w, h⟩
  · simp [pop_of_nil h, h]
  · rw [pop_of_concat h, h]
    constructor
    · rintro h
      cases h
      exact ⟨l, rfl, rfl⟩
    · rintro ⟨k, hk, rfl⟩
      obtain ⟨rfl, hv⟩ := List.append_inj' hk rfl
      cases hv
      rfl

theorem inByte_of_nil (h : s.input = []) : s.inByte = none := by simp [State.inByte, h]

theorem inByte_of_cons {b : Byte} {bs : List Byte} (h : s.input = b :: bs) : s.inByte = some (b, s.setInput bs) := by
  simp [State.inByte, h]

/-! ## Values -/

theorem addWord_toNat (x y : Word) : (addWord x y).toNat = (x.toNat + y.toNat) % 32768 := by
  simp [addWord]; omega

theorem multWord_toNat (x y : Word) : (multWord x y).toNat = x.toNat * y.toNat % 32768 := by
  simp [multWord]; omega

theorem modWord_toNat (x y : Word) : (modWord x y).toNat = x.toNat % y.toNat := by
  have := x.isLt
  have := Nat.mod_le x.toNat y.toNat
  simp [modWord]; omega

theorem notWord_toNat (x : Word) : (notWord x).toNat = 32767 - x.toNat % 32768 := by
  have := x.isLt
  have h : (notWord x).toNat = (65535 - x.toNat) % 2 ^ 15 := by
    rw [← Nat.and_two_pow_sub_one_eq_mod]
    simp [notWord, BitVec.toNat_not]
  omega

end Sys2Proof.Machine
end

