-- ==== Sys2Proof/Laws/Fetch.lean ====
section
/-! SUPPORT. The words a fetch reads, and what a step does with them. -/

namespace Sys2Proof.Machine

variable {s : State}

/-! ## The window -/

theorem wordsFrom_length_le (s : State) (j n : Nat) : (s.wordsFrom j n).length ≤ n := by
  induction n generalizing j with
  | zero => simp [State.wordsFrom]
  | succ n ih =>
    simp only [State.wordsFrom]
    split
    · simpa using ih (j + 1)
    · simp

/-- A word of the window is the word of memory at its place. -/
theorem instrWord_of_wordsFrom {j n l : Nat} {w : Word} (h : (s.wordsFrom j n)[l]? = some w) :
    s.instrWord (j + l) = some w := by
  induction n generalizing j l with
  | zero => simp [State.wordsFrom] at h
  | succ n ih =>
    simp only [State.wordsFrom] at h
    split at h
    · rename_i v hv
      cases l with
      | zero => simpa [hv] using h
      | succ l =>
        have := ih (j := j + 1) (l := l) (by simpa using h)
        rwa [Nat.add_assoc, Nat.add_comm 1] at this
    · simp at h

/-- Where the window stops short of `n` words, the next word does not exist. -/
theorem instrWord_of_wordsFrom_short {j n : Nat} (h : (s.wordsFrom j n).length < n) :
    s.instrWord (j + (s.wordsFrom j n).length) = none := by
  induction n generalizing j with
  | zero => simp at h
  | succ n ih =>
    simp only [State.wordsFrom] at h ⊢
    split at h
    · rename_i v hv
      have := ih (j := j + 1) (by simpa using h)
      simp only [List.length_cons]
      rwa [Nat.add_assoc, Nat.add_comm 1] at this
    · rename_i hn
      simp [hn]

/-- If `m` words exist, the window of `n ≥ m` words has them. -/
theorem le_wordsFrom_length {j m n : Nat} (hmn : m ≤ n) (h : ∀ l, l < m → s.instrWord (j + l) ≠ none) :
    m ≤ (s.wordsFrom j n).length := by
  by_contra hlt
  exact h _ (Nat.lt_of_not_le hlt) (instrWord_of_wordsFrom_short (by omega))

/-- If a word does not exist, the window does not reach past it. -/
theorem wordsFrom_length_le_of_none {j m n : Nat} (h : s.instrWord (j + m) = none) :
    (s.wordsFrom j n).length ≤ m := by
  by_contra hlt
  have hm : m < (s.wordsFrom j n).length := Nat.lt_of_not_le hlt
  have := instrWord_of_wordsFrom (s := s) (List.getElem?_eq_getElem hm)
  rw [h] at this
  cases this

/-- Words that stand at consecutive addresses begin the window. -/
theorem wordsFrom_eq_append {ws : List Word} {j n : Nat} (hn : ws.length ≤ n)
    (h : ∀ l w, ws[l]? = some w → s.instrWord (j + l) = some w) : ∃ rest, s.wordsFrom j n = ws ++ rest := by
  induction ws generalizing j n with
  | nil => exact ⟨_, rfl⟩
  | cons w ws ih =>
    cases n with
    | zero => simp at hn
    | succ n =>
      obtain ⟨rest, hr⟩ := ih (j := j + 1) (n := n) (by simpa using hn) (fun l v hv => by
        have := h (l + 1) v (by simpa using hv)
        rwa [Nat.add_assoc, Nat.add_comm 1])
      have h0 : s.instrWord j = some w := h 0 w rfl
      exact ⟨rest, by simp only [State.wordsFrom, h0, hr, List.cons_append]⟩

/-! ## The loop check and the step -/

theorem loopCheck_halted (h : s.halted = true) : s.loopCheck = .halted := by simp [State.loopCheck, h]

theorem loopCheck_ended (h : s.halted = false) (hp : s.mem.size ≤ s.pc.toNat) : s.loopCheck = .ended := by
  simp [State.loopCheck, h, hp]

theorem loopCheck_execute (h : s.halted = false) (hp : s.pc.toNat < s.mem.size) : s.loopCheck = .execute := by
  simp [State.loopCheck, h, Nat.not_le.2 hp]

theorem loopCheck_eq_execute : s.loopCheck = .execute ↔ s.halted = false ∧ s.pc.toNat < s.mem.size := by
  refine ⟨fun h => ?_, fun ⟨h, hp⟩ => loopCheck_execute h hp⟩
  cases hh : s.halted with
  | true => rw [loopCheck_halted hh] at h; cases h
  | false =>
    refine ⟨rfl, Nat.lt_of_not_le fun hp => ?_⟩
    rw [loopCheck_ended hh hp] at h
    cases h

/-- What `beginStep` notes, no phase before the instruction reads. -/
@[simp] theorem beginStep_loopCheck : s.beginStep.loopCheck = s.loopCheck := rfl
@[simp] theorem beginStep_instrWord (j : Nat) : s.beginStep.instrWord j = s.instrWord j := rfl
@[simp] theorem beginStep_fetchDecode : s.beginStep.fetchDecode = s.fetchDecode := rfl
@[simp] theorem beginStep_site (ia : Word) : s.beginStep.site ia = s.site ia := rfl

/-- A step does one of three things: nothing, an instruction, or a fault of dispatch. -/
theorem step_cases (s : State) :
    (step s = .next s ∧ s.loopCheck ≠ .execute) ∨
    (∃ i, s.loopCheck = .execute ∧ s.fetchDecode = .ok i ∧ step s = exec i s.beginStep) ∨
    ∃ r, s.loopCheck = .execute ∧ s.fetchDecode = .error r ∧ step s = dispatchFault r s := by
  unfold step
  split
  · rename_i h; exact .inl ⟨rfl, by simp [h]⟩
  · rename_i h; exact .inl ⟨rfl, by simp [h]⟩
  · rename_i h
    split
    · rename_i i hi; exact .inr (.inl ⟨i, h, hi, rfl⟩)
    · rename_i r hr; exact .inr (.inr ⟨r, h, hr, rfl⟩)

theorem step_of_ok {i : Instr} (h : s.loopCheck = .execute) (hd : s.fetchDecode = .ok i) :
    step s = exec i s.beginStep := by
  simp [step, h, hd]

theorem step_of_error {r : Reject} (h : s.loopCheck = .execute) (hd : s.fetchDecode = .error r) :
    step s = dispatchFault r s := by
  simp [step, h, hd]

theorem dispatchFault_ne_next {r : Reject} {t : State} : dispatchFault r s ≠ .next t := by
  cases r <;> simp [dispatchFault]

end Sys2Proof.Machine
end

