-- ==== Sys2Proof/Laws/Exec.lean ====
section
/-! SUPPORT. Each meaning once, as a case analysis on what it answers; then the faults of every instruction in one list. -/

namespace Sys2Proof.Machine

variable {s t : State}

theorem advance_site (n : Nat) (ia : Word) : (s.advance n).site ia = s.site ia := rfl

/-! ## The instructions with cases of their own -/

theorem execPop_of_nil (a : Dst) (h : s.stack = []) : execPop a s = .fault (.stackUnderflow (s.site s.pc)) := by
  simp [execPop, pop_of_nil (s := s.advance 2) h, raise]

theorem execPop_of_concat (a : Dst) {l : List Word} {v : Word} (h : s.stack = l ++ [v]) :
    execPop a s = store s.pc a v ((s.advance 2).setStack l) := by
  simp [execPop, pop_of_concat (s := s.advance 2) h]

theorem execRet_of_nil (h : s.stack = []) : execRet s = .next (s.advance 1).setHalted := by
  simp [execRet, pop_of_nil (s := s.advance 1) h]

theorem execRet_of_concat {l : List Word} {v : Word} (h : s.stack = l ++ [v]) :
    execRet s = .next (((s.advance 1).setStack l).jump v) := by
  simp [execRet, pop_of_concat (s := s.advance 1) h]

theorem execPush_of_room (a : Src) (h : s.params.stackCapacity ≠ some s.stack.length) :
    execPush a s = .next ((s.advance 2).setStack (s.stack ++ [resolve a s])) :=
  push_of_room (s := s.advance 2) h

theorem execPush_of_full (a : Src) (h : s.params.stackCapacity = some s.stack.length) :
    execPush a s = .fault (.stackOverflow (s.site s.pc)) :=
  push_of_full (s := s.advance 2) h

theorem execCall_of_room (a : Src) (h : s.params.stackCapacity ≠ some s.stack.length) :
    execCall a s = .next (((s.advance 2).setStack (s.stack ++ [s.pc + 2])).jump (resolve a s)) := by
  simp only [execCall, push_of_room (s := s.advance 2) h]
  rfl

theorem execCall_of_full (a : Src) (h : s.params.stackCapacity = some s.stack.length) :
    execCall a s = .fault (.stackOverflow (s.site s.pc)) := by
  simp only [execCall, push_of_full (s := s.advance 2) h]
  rfl

theorem execIn_of_nil (a : Dst) (h : s.input = []) : execIn a s = .next s := by
  simp [execIn, inByte_of_nil (s := s.advance 2) h]

theorem execIn_of_cons (a : Dst) {b : Byte} {bs : List Byte} (h : s.input = b :: bs) :
    execIn a s = store s.pc a (b.setWidth 16) ((s.advance 2).setInput bs) := by
  simp [execIn, inByte_of_cons (s := s.advance 2) h]

theorem execMod_of_zero (a : Dst) (b : Src) {c : Src} (h : resolve c s = 0) :
    execMod a b c s = .fault (.divideByZero (s.site s.pc)) := by
  simp [execMod, h, raise]

theorem execMod_of_ne_zero (a : Dst) (b : Src) {c : Src} (h : resolve c s ≠ 0) :
    execMod a b c s = store s.pc a (modWord (resolve b s) (resolve c s)) (s.advance 4) := by
  simp only [execMod, if_neg h]

theorem execRmem_of_lt (a : Dst) {b : Src} (h : (resolve b s).toNat < s.mem.size) :
    execRmem a b s = store s.pc a (s.mem.getWord (resolve b s).toNat) (s.advance 3) := by
  simp [execRmem, Memory.read, h]

theorem execRmem_of_ge (a : Dst) {b : Src} (h : s.mem.size ≤ (resolve b s).toNat) :
    execRmem a b s = .fault (.memoryOutOfBounds (resolve b s) (s.site s.pc)) := by
  simp [execRmem, Memory.read, Nat.not_lt.2 h, raise]

/-! ## All instructions -/

/-- No instruction is refused. -/
theorem exec_ne_refused (i : Instr) (s : State) (r : Refusal) : exec i s ≠ .refused r := by
  cases i with
  | pop a =>
    rcases List.eq_nil_or_concat' s.stack with h | ⟨l, v, h⟩
    · simp [exec, execPop_of_nil a h]
    · simp [exec, execPop_of_concat a h]
  | ret =>
    rcases List.eq_nil_or_concat' s.stack with h | ⟨l, v, h⟩
    · simp [exec, execRet_of_nil h]
    · simp [exec, execRet_of_concat h]
  | push a =>
    by_cases h : s.params.stackCapacity = some s.stack.length
    · simp [exec, execPush_of_full a h]
    · simp [exec, execPush_of_room a h]
  | call a =>
    by_cases h : s.params.stackCapacity = some s.stack.length
    · simp [exec, execCall_of_full a h]
    · simp [exec, execCall_of_room a h]
  | mod a b c =>
    by_cases h : resolve c s = 0
    · simp [exec, execMod_of_zero a b h]
    · simp [exec, execMod_of_ne_zero a b h]
  | rmem a b =>
    by_cases h : (resolve b s).toNat < s.mem.size
    · simp [exec, execRmem_of_lt a h]
    · simp [exec, execRmem_of_ge a (Nat.le_of_not_lt h)]
  | inp a =>
    cases h : s.input with
    | nil => simp [exec, execIn_of_nil a h]
    | cons b bs => simp [exec, execIn_of_cons a h]
  | _ =>
    simp [exec, execHalt, execNoop, execSet, execEq, execGt, execJmp, execJt, execJf, execAdd, execMult, execAnd, execOr,
      execNot, execWmem, execOut]

/-- Every fault of every instruction: a destination, an `rmem` read or a `wmem` write at or beyond N, an empty stack, a zero
divisor, a full stack. -/
theorem exec_eq_fault {i : Instr} {f : Fault} (h : exec i s = .fault f) :
    (∃ addr, destination i = some (.mem addr) ∧ s.mem.size ≤ addr.toNat ∧
      (f = .memoryOutOfBounds addr (s.site s.pc) ∨
        ∃ b bs, i = .inp (.mem addr) ∧ s.input = b :: bs ∧ f = .memoryOutOfBounds addr ⟨s.pc, s.output, bs⟩)) ∨
    (∃ a b, i = .rmem a b ∧ s.mem.size ≤ (resolve b s).toNat ∧ f = .memoryOutOfBounds (resolve b s) (s.site s.pc)) ∨
    (∃ a b, i = .wmem a b ∧ s.mem.size ≤ (resolve a s).toNat ∧ f = .memoryOutOfBounds (resolve a s) (s.site s.pc)) ∨
    (∃ a, i = .pop a ∧ s.stack = [] ∧ f = .stackUnderflow (s.site s.pc)) ∨
    (∃ a b c, i = .mod a b c ∧ resolve c s = 0 ∧ f = .divideByZero (s.site s.pc)) ∨
    ∃ a, (i = .push a ∨ i = .call a) ∧ s.params.stackCapacity = some s.stack.length ∧ f = .stackOverflow (s.site s.pc) := by
  have dst : ∀ {d v u}, store s.pc d v u = .fault f → destination i = some d → u.mem = s.mem →
      u.site s.pc = s.site s.pc → ∃ addr, destination i = some (.mem addr) ∧ s.mem.size ≤ addr.toNat ∧
        (f = .memoryOutOfBounds addr (s.site s.pc) ∨
          ∃ b bs, i = .inp (.mem addr) ∧ s.input = b :: bs ∧ f = .memoryOutOfBounds addr ⟨s.pc, s.output, bs⟩) := by
    intro d v u h hd hm hs
    obtain ⟨a, rfl, ha, hf⟩ := store_eq_fault.1 h
    exact ⟨a, hd, hm ▸ ha, .inl (hs ▸ hf)⟩
  cases i with
  | halt | noop | jmp | jt | jf | out => cases h
  | ret =>
    rcases List.eq_nil_or_concat' s.stack with hs | ⟨l, v, hs⟩
    · simp [exec, execRet_of_nil hs] at h
    · simp [exec, execRet_of_concat hs] at h
  | set a b | eq a b c | gt a b c | add a b c | mult a b c | and a b c | or a b c | not a b =>
    exact .inl (dst h rfl rfl rfl)
  | pop a =>
    rcases List.eq_nil_or_concat' s.stack with hs | ⟨l, v, hs⟩
    · simp only [exec, execPop_of_nil a hs] at h
      exact .inr (.inr (.inr (.inl ⟨a, rfl, hs, (Host.Outcome.fault.inj h).symm⟩)))
    · simp only [exec, execPop_of_concat a hs] at h
      exact .inl (dst h rfl rfl rfl)
  | push a =>
    obtain ⟨hc, rfl⟩ := push_eq_fault.1 (show push s.pc (resolve a s) (s.advance 2) = .fault f from h)
    exact .inr (.inr (.inr (.inr (.inr ⟨a, .inl rfl, hc, rfl⟩))))
  | call a =>
    by_cases hc : s.params.stackCapacity = some s.stack.length
    · simp only [exec, execCall_of_full a hc] at h
      exact .inr (.inr (.inr (.inr (.inr ⟨a, .inr rfl, hc, (Host.Outcome.fault.inj h).symm⟩))))
    · simp [exec, execCall_of_room a hc] at h
  | mod a b c =>
    by_cases hc : resolve c s = 0
    · simp only [exec, execMod_of_zero a b hc] at h
      exact .inr (.inr (.inr (.inr (.inl ⟨a, b, c, rfl, hc, (Host.Outcome.fault.inj h).symm⟩))))
    · simp only [exec, execMod_of_ne_zero a b hc] at h
      exact .inl (dst h rfl rfl rfl)
  | rmem a b =>
    by_cases hb : (resolve b s).toNat < s.mem.size
    · simp only [exec, execRmem_of_lt a hb] at h
      exact .inl (dst h rfl rfl rfl)
    · simp only [exec, execRmem_of_ge a (Nat.le_of_not_lt hb)] at h
      exact .inr (.inl ⟨a, b, rfl, Nat.le_of_not_lt hb, (Host.Outcome.fault.inj h).symm⟩)
  | wmem a b =>
    obtain ⟨ha, rfl⟩ := memWrite_eq_fault.1 (show memWrite s.pc (resolve a s) (resolve b s) (s.advance 3) = .fault f from h)
    exact .inr (.inr (.inl ⟨a, b, rfl, ha, rfl⟩))
  | inp a =>
    cases hi : s.input with
    | nil => simp [exec, execIn_of_nil a hi] at h
    | cons b bs =>
      simp only [exec, execIn_of_cons a hi] at h
      obtain ⟨addr, rfl, ha, rfl⟩ := store_eq_fault.1 h
      exact .inl ⟨addr, rfl, ha, .inr ⟨b, bs, rfl, rfl, rfl⟩⟩

/-- The state `u` in which instruction `i`, run from `s`, stores `v` to its destination `d`: the pc has moved past the
instruction; `pop` has taken `v` off the stack, `in` has taken a byte; nothing else differs from `s`. -/
structure BeforeStore (i : Instr) (d : Dst) (v : Word) (s u : State) : Prop where
  dst : destination i = some d
  pc : u.pc = s.pc + BitVec.ofNat 16 (encode i).length
  mem : u.mem = s.mem
  regs : u.regs = s.regs
  params : u.params = s.params
  stepped : u.stepped = s.stepped
  halted : u.halted = s.halted
  output : u.output = s.output
  ports : i = .pop d ∧ s.stack = u.stack ++ [v] ∧ u.input = s.input ∨
    u.stack = s.stack ∧ i = .inp d ∧ (∃ b, s.input = b :: u.input) ∨
    u.stack = s.stack ∧ u.input = s.input ∧ touchesStack i = false ∧ ∀ a, i ≠ .inp a

/-- What `push`, `call` and `ret` leave on the stack. -/
def stackAfter : Instr → State → List Word
  | .push a, s => s.stack ++ [resolve a s]
  | .call _, s => s.stack ++ [s.pc + 2]
  | .ret, s => s.stack.dropLast
  | _, s => s.stack

/-- From `s` to `t` instruction `i` wrote no register and no memory; this is everything it did. -/
structure NoStore (i : Instr) (s t : State) : Prop where
  dst : destination i = none
  not_wmem : ∀ a b, i ≠ .wmem a b
  mem : t.mem = s.mem
  regs : t.regs = s.regs
  params : t.params = s.params
  stepped : t.stepped = s.stepped
  input : t.input = s.input
  pc : t.pc = (transferTarget i s).getD (s.pc + BitVec.ofNat 16 (encode i).length)
  halted : t.halted = (s.halted || decide (i = .halt) || decide (i = .ret ∧ s.stack = []))
  output : t.output = s.output ++ emits i s
  stack : t.stack = stackAfter i s
  room : touchesStack i = true → i = .ret ∨ s.params.stackCapacity ≠ some s.stack.length

/-- Every next state of every instruction: a store to the destination, a store by `wmem`, no store, or an `in` that waits. -/
theorem exec_eq_next {i : Instr} (h : exec i s = .next t) :
    (∃ d v u, BeforeStore i d v s u ∧ store s.pc d v u = .next t) ∨
    (∃ a b, i = .wmem a b ∧ (resolve a s).toNat < s.mem.size ∧
      t = (s.advance 3).setMem (s.mem.setWord (resolve a s).toNat (resolve b s))) ∨
    NoStore i s t ∨ ∃ a, i = .inp a ∧ s.input = [] ∧ t = s := by
  have plain : ∀ {d v}, destination i = some d → touchesStack i = false → (∀ a, i ≠ .inp a) →
      BeforeStore i d v s (s.advance (encode i).length) := fun hd hi hn =>
    ⟨hd, rfl, rfl, rfl, rfl, rfl, rfl, rfl, .inr (.inr ⟨rfl, rfl, hi, hn⟩)⟩
  cases i with
  | halt | noop | jmp | out =>
    cases h
    exact .inr (.inr (.inl ⟨rfl, by simp, rfl, rfl, rfl, rfl, rfl, rfl, by simp [State.emit_eq], by simp [emits, State.emit_eq], rfl, by simp [touchesStack]⟩))
  | jt a b | jf a b =>
    cases h
    refine .inr (.inr (.inl ?_))
    by_cases ha : resolve a s = 0
    · rw [if_pos ha]
      exact ⟨rfl, by simp, rfl, rfl, rfl, rfl, rfl, by rw [transferTarget, if_pos ha]; rfl, by simp, by simp [emits],
        rfl, by simp [touchesStack]⟩
    · rw [if_neg ha]
      exact ⟨rfl, by simp, rfl, rfl, rfl, rfl, rfl, by rw [transferTarget, if_neg ha]; rfl, by simp, by simp [emits],
        rfl, by simp [touchesStack]⟩
  | ret =>
    refine .inr (.inr (.inl ?_))
    rcases List.eq_nil_or_concat' s.stack with hs | ⟨l, v, hs⟩
    · simp only [exec, execRet_of_nil hs] at h
      cases h
      exact ⟨rfl, by simp, rfl, rfl, rfl, rfl, rfl, by simp [transferTarget, hs, encode, Instr.operandWords], by simp [hs],
        by simp [emits], by simp [stackAfter, hs], by simp⟩
    · simp only [exec, execRet_of_concat hs] at h
      cases h
      exact ⟨rfl, by simp, rfl, rfl, rfl, rfl, rfl, by simp [transferTarget, hs], by simp [hs], by simp [emits],
        by simp [stackAfter, hs], by simp⟩
  | set a b | eq a b c | gt a b c | add a b c | mult a b c | and a b c | or a b c | not a b =>
    exact .inl ⟨a, _, _, plain rfl rfl (by simp), h⟩
  | pop a =>
    rcases List.eq_nil_or_concat' s.stack with hs | ⟨l, v, hs⟩
    · simp [exec, execPop_of_nil a hs] at h
    · simp only [exec, execPop_of_concat a hs] at h
      exact .inl ⟨a, v, (s.advance 2).setStack l, ⟨rfl, rfl, rfl, rfl, rfl, rfl, rfl, rfl, .inl ⟨rfl, hs, rfl⟩⟩, h⟩
  | push a =>
    obtain ⟨hc, rfl⟩ := push_eq_next.1 (show push s.pc (resolve a s) (s.advance 2) = .next t from h)
    exact .inr (.inr (.inl ⟨rfl, by simp, rfl, rfl, rfl, rfl, rfl, rfl, by simp, by simp [emits], rfl, fun _ => .inr hc⟩))
  | call a =>
    by_cases hc : s.params.stackCapacity = some s.stack.length
    · simp [exec, execCall_of_full a hc] at h
    · simp only [exec, execCall_of_room a hc] at h
      cases h
      exact .inr (.inr (.inl ⟨rfl, by simp, rfl, rfl, rfl, rfl, rfl, rfl, by simp, by simp [emits], rfl, fun _ => .inr hc⟩))
  | mod a b c =>
    by_cases hc : resolve c s = 0
    · simp [exec, execMod_of_zero a b hc] at h
    · simp only [exec, execMod_of_ne_zero a b hc] at h
      exact .inl ⟨a, _, _, plain rfl rfl (by simp), h⟩
  | rmem a b =>
    by_cases hb : (resolve b s).toNat < s.mem.size
    · simp only [exec, execRmem_of_lt a hb] at h
      exact .inl ⟨a, _, _, plain rfl rfl (by simp), h⟩
    · simp [exec, execRmem_of_ge a (Nat.le_of_not_lt hb)] at h
  | wmem a b =>
    obtain ⟨ha, rfl⟩ := memWrite_eq_next.1 (show memWrite s.pc (resolve a s) (resolve b s) (s.advance 3) = .next t from h)
    exact .inr (.inl ⟨a, b, rfl, ha, rfl⟩)
  | inp a =>
    cases hi : s.input with
    | nil =>
      simp only [exec, execIn_of_nil a hi] at h
      cases h
      exact .inr (.inr (.inr ⟨a, rfl, rfl, rfl⟩))
    | cons b bs =>
      simp only [exec, execIn_of_cons a hi] at h
      exact .inl ⟨a, _, (s.advance 2).setInput bs, ⟨rfl, rfl, rfl, rfl, rfl, rfl, rfl, rfl, .inr (.inl ⟨rfl, rfl, b, hi⟩)⟩, h⟩

end Sys2Proof.Machine
end

