-- ==== Sys2Proof/Laws/PerInstr.lean ====
section
/-! SUPPORT. What holds of every instruction as syntax, constructor by constructor. -/

namespace Sys2Proof.Laws

/-- The words of a well-formed source: below 32776 (R66). -/
theorem srcWord_lt {o : Src} (h : o.wf = true) : o.word.toNat < 32776 := exists_src_word.1 ⟨o, h, rfl⟩

/-- The words of a well-formed destination: below 32776 (R66). -/
theorem dstWord_lt {o : Dst} (h : o.wf = true) : o.word.toNat < 32776 := exists_dst_word.1 ⟨o, h, rfl⟩

namespace EncodingBounds

/-- The opcode is one of 0 to 21 (R61, R64), an instruction has 1 to 4 words (R60, R65), and the operand words of a well-formed
one are legal (R62, R66). -/
def Statement (i : Instr) : Prop :=
  i.opcode < 22 ∧ i.length = 1 + i.operandWords.length ∧ i.length ≤ 4 ∧
    (i.wf = true → ∀ w ∈ i.operandWords, w.toNat < 32776)

theorem halt : Statement .halt := by
  simp [Statement, Instr.opcode, Instr.length, encode, Instr.operandWords]

theorem set (a : Dst) (b : Src) : Statement (.set a b) := by
  simp only [Statement, Instr.opcode, Instr.length, encode, Instr.operandWords, Instr.wf, List.length_cons, List.length_nil,
    Bool.and_eq_true, List.forall_mem_cons, List.not_mem_nil, false_imp_iff, implies_true, and_true]
  exact ⟨by omega, trivial, by omega, fun ⟨ha, hb⟩ => ⟨dstWord_lt ha, srcWord_lt hb⟩⟩

theorem push (a : Src) : Statement (.push a) := by
  simp only [Statement, Instr.opcode, Instr.length, encode, Instr.operandWords, Instr.wf, List.length_cons, List.length_nil,
    List.forall_mem_cons, List.not_mem_nil, false_imp_iff, implies_true, and_true]
  exact ⟨by omega, trivial, by omega, fun h => srcWord_lt h⟩

theorem pop (a : Dst) : Statement (.pop a) := by
  simp only [Statement, Instr.opcode, Instr.length, encode, Instr.operandWords, Instr.wf, List.length_cons, List.length_nil,
    List.forall_mem_cons, List.not_mem_nil, false_imp_iff, implies_true, and_true]
  exact ⟨by omega, trivial, by omega, fun h => dstWord_lt h⟩

theorem eq (a : Dst) (b : Src) (c : Src) : Statement (.eq a b c) := by
  simp only [Statement, Instr.opcode, Instr.length, encode, Instr.operandWords, Instr.wf, List.length_cons, List.length_nil,
    Bool.and_eq_true, List.forall_mem_cons, List.not_mem_nil, false_imp_iff, implies_true, and_true]
  exact ⟨by omega, trivial, by omega, fun ⟨⟨ha, hb⟩, hc⟩ => ⟨dstWord_lt ha, srcWord_lt hb, srcWord_lt hc⟩⟩

theorem gt (a : Dst) (b : Src) (c : Src) : Statement (.gt a b c) := by
  simp only [Statement, Instr.opcode, Instr.length, encode, Instr.operandWords, Instr.wf, List.length_cons, List.length_nil,
    Bool.and_eq_true, List.forall_mem_cons, List.not_mem_nil, false_imp_iff, implies_true, and_true]
  exact ⟨by omega, trivial, by omega, fun ⟨⟨ha, hb⟩, hc⟩ => ⟨dstWord_lt ha, srcWord_lt hb, srcWord_lt hc⟩⟩

theorem jmp (a : Src) : Statement (.jmp a) := by
  simp only [Statement, Instr.opcode, Instr.length, encode, Instr.operandWords, Instr.wf, List.length_cons, List.length_nil,
    List.forall_mem_cons, List.not_mem_nil, false_imp_iff, implies_true, and_true]
  exact ⟨by omega, trivial, by omega, fun h => srcWord_lt h⟩

theorem jt (a : Src) (b : Src) : Statement (.jt a b) := by
  simp only [Statement, Instr.opcode, Instr.length, encode, Instr.operandWords, Instr.wf, List.length_cons, List.length_nil,
    Bool.and_eq_true, List.forall_mem_cons, List.not_mem_nil, false_imp_iff, implies_true, and_true]
  exact ⟨by omega, trivial, by omega, fun ⟨ha, hb⟩ => ⟨srcWord_lt ha, srcWord_lt hb⟩⟩

theorem jf (a : Src) (b : Src) : Statement (.jf a b) := by
  simp only [Statement, Instr.opcode, Instr.length, encode, Instr.operandWords, Instr.wf, List.length_cons, List.length_nil,
    Bool.and_eq_true, List.forall_mem_cons, List.not_mem_nil, false_imp_iff, implies_true, and_true]
  exact ⟨by omega, trivial, by omega, fun ⟨ha, hb⟩ => ⟨srcWord_lt ha, srcWord_lt hb⟩⟩

theorem add (a : Dst) (b : Src) (c : Src) : Statement (.add a b c) := by
  simp only [Statement, Instr.opcode, Instr.length, encode, Instr.operandWords, Instr.wf, List.length_cons, List.length_nil,
    Bool.and_eq_true, List.forall_mem_cons, List.not_mem_nil, false_imp_iff, implies_true, and_true]
  exact ⟨by omega, trivial, by omega, fun ⟨⟨ha, hb⟩, hc⟩ => ⟨dstWord_lt ha, srcWord_lt hb, srcWord_lt hc⟩⟩

theorem mult (a : Dst) (b : Src) (c : Src) : Statement (.mult a b c) := by
  simp only [Statement, Instr.opcode, Instr.length, encode, Instr.operandWords, Instr.wf, List.length_cons, List.length_nil,
    Bool.and_eq_true, List.forall_mem_cons, List.not_mem_nil, false_imp_iff, implies_true, and_true]
  exact ⟨by omega, trivial, by omega, fun ⟨⟨ha, hb⟩, hc⟩ => ⟨dstWord_lt ha, srcWord_lt hb, srcWord_lt hc⟩⟩

theorem mod (a : Dst) (b : Src) (c : Src) : Statement (.mod a b c) := by
  simp only [Statement, Instr.opcode, Instr.length, encode, Instr.operandWords, Instr.wf, List.length_cons, List.length_nil,
    Bool.and_eq_true, List.forall_mem_cons, List.not_mem_nil, false_imp_iff, implies_true, and_true]
  exact ⟨by omega, trivial, by omega, fun ⟨⟨ha, hb⟩, hc⟩ => ⟨dstWord_lt ha, srcWord_lt hb, srcWord_lt hc⟩⟩

theorem and (a : Dst) (b : Src) (c : Src) : Statement (.and a b c) := by
  simp only [Statement, Instr.opcode, Instr.length, encode, Instr.operandWords, Instr.wf, List.length_cons, List.length_nil,
    Bool.and_eq_true, List.forall_mem_cons, List.not_mem_nil, false_imp_iff, implies_true, and_true]
  exact ⟨by omega, trivial, by omega, fun ⟨⟨ha, hb⟩, hc⟩ => ⟨dstWord_lt ha, srcWord_lt hb, srcWord_lt hc⟩⟩

theorem or (a : Dst) (b : Src) (c : Src) : Statement (.or a b c) := by
  simp only [Statement, Instr.opcode, Instr.length, encode, Instr.operandWords, Instr.wf, List.length_cons, List.length_nil,
    Bool.and_eq_true, List.forall_mem_cons, List.not_mem_nil, false_imp_iff, implies_true, and_true]
  exact ⟨by omega, trivial, by omega, fun ⟨⟨ha, hb⟩, hc⟩ => ⟨dstWord_lt ha, srcWord_lt hb, srcWord_lt hc⟩⟩

theorem not (a : Dst) (b : Src) : Statement (.not a b) := by
  simp only [Statement, Instr.opcode, Instr.length, encode, Instr.operandWords, Instr.wf, List.length_cons, List.length_nil,
    Bool.and_eq_true, List.forall_mem_cons, List.not_mem_nil, false_imp_iff, implies_true, and_true]
  exact ⟨by omega, trivial, by omega, fun ⟨ha, hb⟩ => ⟨dstWord_lt ha, srcWord_lt hb⟩⟩

theorem rmem (a : Dst) (b : Src) : Statement (.rmem a b) := by
  simp only [Statement, Instr.opcode, Instr.length, encode, Instr.operandWords, Instr.wf, List.length_cons, List.length_nil,
    Bool.and_eq_true, List.forall_mem_cons, List.not_mem_nil, false_imp_iff, implies_true, and_true]
  exact ⟨by omega, trivial, by omega, fun ⟨ha, hb⟩ => ⟨dstWord_lt ha, srcWord_lt hb⟩⟩

theorem wmem (a : Src) (b : Src) : Statement (.wmem a b) := by
  simp only [Statement, Instr.opcode, Instr.length, encode, Instr.operandWords, Instr.wf, List.length_cons, List.length_nil,
    Bool.and_eq_true, List.forall_mem_cons, List.not_mem_nil, false_imp_iff, implies_true, and_true]
  exact ⟨by omega, trivial, by omega, fun ⟨ha, hb⟩ => ⟨srcWord_lt ha, srcWord_lt hb⟩⟩

theorem call (a : Src) : Statement (.call a) := by
  simp only [Statement, Instr.opcode, Instr.length, encode, Instr.operandWords, Instr.wf, List.length_cons, List.length_nil,
    List.forall_mem_cons, List.not_mem_nil, false_imp_iff, implies_true, and_true]
  exact ⟨by omega, trivial, by omega, fun h => srcWord_lt h⟩

theorem ret : Statement .ret := by
  simp [Statement, Instr.opcode, Instr.length, encode, Instr.operandWords]

theorem out (a : Src) : Statement (.out a) := by
  simp only [Statement, Instr.opcode, Instr.length, encode, Instr.operandWords, Instr.wf, List.length_cons, List.length_nil,
    List.forall_mem_cons, List.not_mem_nil, false_imp_iff, implies_true, and_true]
  exact ⟨by omega, trivial, by omega, fun h => srcWord_lt h⟩

theorem inp (a : Dst) : Statement (.inp a) := by
  simp only [Statement, Instr.opcode, Instr.length, encode, Instr.operandWords, Instr.wf, List.length_cons, List.length_nil,
    List.forall_mem_cons, List.not_mem_nil, false_imp_iff, implies_true, and_true]
  exact ⟨by omega, trivial, by omega, fun h => dstWord_lt h⟩

theorem noop : Statement .noop := by
  simp [Statement, Instr.opcode, Instr.length, encode, Instr.operandWords]

end EncodingBounds

end Sys2Proof.Laws
end

