-- ==== Sys2Proof/Laws/Run.lean ====
section
/-! SUPPORT. What holds along a run if every step keeps it, and that loading a program from outside keeps memory canonical. -/

namespace Sys2Proof.Machine

/-- The induction over a run, once: what every step keeps, `n` steps keep. -/
theorem stepN_keeps {P : State → Prop} (keep : ∀ s t, P s → step s = .next t → P t) {n : Nat} {s t : State} (h : P s)
    (hn : stepN n s = .next t) : P t := by
  induction n generalizing s with
  | zero => cases hn; exact h
  | succ n ih =>
    unfold stepN at hn
    split at hn
    · rename_i u hu; exact ih (keep s u h hu) hn
    · cases hn
    · cases hn

theorem Memory.wf_of_size_le {m : Memory} (h : m.wf) {n : Nat} (hm : m.size ≤ n) (hn : n ≤ 65536) :
    ({ m with size := n } : Memory).wf :=
  ⟨hn, h.2.1, fun c hc => ⟨by have := (h.2.2 c hc).1; simp only; omega, (h.2.2 c hc).2⟩⟩

theorem Memory.wf_putWords {ws : List Word} {m : Memory} {a : Word} (h : m.wf)
    (ha : ∀ j, j < ws.length → (a + BitVec.ofNat 16 j).toNat < m.size) : (m.putWords a ws).wf := by
  induction ws generalizing m a with
  | nil => exact h
  | cons w ws ih =>
    refine ih (Memory.wf_setWord h (by simpa using ha 0 (by simp)) w) fun j hj => ?_
    have := ha (j + 1) (by simpa using hj)
    rwa [Nat.add_comm j 1, BitVec.ofNat_add, ← BitVec.add_assoc] at this

/-- A state with a program placed at its pc has canonical memory if the state had. -/
theorem State.placeWords_wf {s : State} (h : s.mem.wf) (ws : List Word) : (s.placeWords ws).mem.wf := by
  have hp := s.pc.isLt
  refine Memory.wf_putWords (Memory.wf_of_size_le h (by omega) (by have := h.1; omega)) fun j hj => ?_
  rw [BitVec.toNat_add, BitVec.toNat_ofNat]
  simp only
  omega

theorem State.withFetchWord_inv {s : State} (h : s.Inv) (nbits w : Nat) : (s.withFetchWord nbits w).Inv :=
  ⟨State.placeWords_wf h.1 _, h.2⟩

end Sys2Proof.Machine
end

