-- ==== Sys2Proof/Tests/Slice0.lean ====
section
/-! SUPPORT. Tests of single steps, from the vectors of 95_test_vectors.md (V.., S.., P..) and the tables of 30_encoding.md, and
a witness for the hypotheses of every statement. -/

namespace Sys2Proof.Tests

open Sys2Proof Sys2Proof.Machine

/-- The start state of a vector: the construction from an image, with registers, stack, input, capacity or pc as stated. -/
def machine (image : List Word) (regs : List (RegIdx × Word) := []) (stack : List Word := []) (input : List Byte := [])
    (capacity : Option Nat := none) (pc : Word := 0) : State :=
  regs.foldl (fun s rv => s.setReg rv.1 rv.2)
    { State.reset with
      params := ⟨capacity⟩, mem := Memory.ofImage image, stack := stack, input := input, pc := pc }

/-- Register, pc and status after one step. -/
def regAfter (r : RegIdx) (s : State) : Option (Word × Word × Status) :=
  (nextState (step s)).map fun t => (t.reg r, t.pc, t.status)

/-- Stack, pc and status after one step. -/
def stackAfter (s : State) : Option (List Word × Word × Status) :=
  (nextState (step s)).map fun t => (t.stack, t.pc, t.status)

/-- A word of memory, pc and status after one step. -/
def memAfter (a : Nat) (s : State) : Option (Option Word × Word × Status) :=
  (nextState (step s)).map fun t => (t.mem.read a, t.pc, t.status)

/-- Output, input, pc and status after one step. -/
def portsAfter (s : State) : Option (List Word × List Byte × Word × Status) :=
  (nextState (step s)).map fun t => (t.output, t.input, t.pc, t.status)

/-- The status of a step that faults. -/
def faultStatus (s : State) : Option Status := (faultOf (step s)).map Fault.status

/-! ## Decoding: words written out from R64, for every row -/

theorem test_decode_halt : decode [0] = .ok .halt := by decide
theorem test_decode_set_reg : decode [1, 32768, 5] = .ok (.set (.reg 0) (.lit 5)) := by decide
theorem test_decode_set_mem : decode [1, 4, 77] = .ok (.set (.mem 4) (.lit 77)) := by decide
theorem test_decode_push : decode [2, 32775] = .ok (.push (.reg 7)) := by decide
theorem test_decode_pop : decode [3, 32769] = .ok (.pop (.reg 1)) := by decide
theorem test_decode_eq : decode [4, 32768, 32769, 5] = .ok (.eq (.reg 0) (.reg 1) (.lit 5)) := by decide
theorem test_decode_gt : decode [5, 32768, 3, 32767] = .ok (.gt (.reg 0) (.lit 3) (.lit 32767)) := by decide
theorem test_decode_jmp : decode [6, 32770] = .ok (.jmp (.reg 2)) := by decide
theorem test_decode_jt : decode [7, 32768, 6] = .ok (.jt (.reg 0) (.lit 6)) := by decide
theorem test_decode_jf : decode [8, 32768, 100] = .ok (.jf (.reg 0) (.lit 100)) := by decide
theorem test_decode_add : decode [9, 32770, 32768, 32769] = .ok (.add (.reg 2) (.reg 0) (.reg 1)) := by decide
theorem test_decode_mult : decode [10, 32768, 3, 4] = .ok (.mult (.reg 0) (.lit 3) (.lit 4)) := by decide
theorem test_decode_mod : decode [11, 32768, 10, 3] = .ok (.mod (.reg 0) (.lit 10) (.lit 3)) := by decide
theorem test_decode_and : decode [12, 32768, 12, 10] = .ok (.and (.reg 0) (.lit 12) (.lit 10)) := by decide
theorem test_decode_or : decode [13, 32768, 32769, 1] = .ok (.or (.reg 0) (.reg 1) (.lit 1)) := by decide
theorem test_decode_not : decode [14, 32768, 21845] = .ok (.not (.reg 0) (.lit 21845)) := by decide
theorem test_decode_rmem : decode [15, 32768, 5] = .ok (.rmem (.reg 0) (.lit 5)) := by decide
theorem test_decode_wmem : decode [16, 32769, 7] = .ok (.wmem (.reg 1) (.lit 7)) := by decide
theorem test_decode_call : decode [17, 6] = .ok (.call (.lit 6)) := by decide
theorem test_decode_ret : decode [18] = .ok .ret := by decide
theorem test_decode_out : decode [19, 32770] = .ok (.out (.reg 2)) := by decide
theorem test_decode_in : decode [20, 32771] = .ok (.inp (.reg 3)) := by decide
theorem test_decode_noop : decode [21] = .ok .noop := by decide

/-- The image file's bytes, little-endian (R33): `add r2 r0 7`. -/
theorem test_decode_bytes : decodeBytes [9, 0, 2, 128, 0, 128, 7, 0] = .ok (.add (.reg 2) (.reg 0) (.lit 7)) := by decide

/-- R61, R66: the opcode word is not resolved; 22 is the first illegal one. -/
theorem test_reject_opcodes : decode [22] = .error (.unknownOpcode 22) ∧ decode [32768] = .error (.unknownOpcode 32768) := by
  decide

/-- R66: 32775 is the last register, 32776 illegal; the lowest illegal operand is named; a missing word comes before an illegal
one. -/
theorem test_reject_operands :
    decode [2, 32776] = .error (.invalidOperand 0 32776) ∧ decode [9, 32768, 65535, 32776] = .error (.invalidOperand 1 65535) ∧
    decode [9, 40000, 1] = .error (.missingWord 3) := by decide

/-- The host's numbering: bit 0 is the least significant bit of the first word. -/
theorem test_decodeTableWord :
    decodeTableWord 48 (1 + 65536 * 32768 + 65536 ^ 2 * 5) = some (.set (.reg 0) (.lit 5)) ∧
    decodeTableWord 16 20 = some (.inp (.mem 0)) ∧ decodeTableWord 16 22 = none := by decide

theorem test_withFetchWord_runs : regAfter 0 (State.reset.withFetchWord 48 (1 + 65536 * 32768 + 65536 ^ 2 * 5)) =
    some (5, 3, .running) := by decide

/-- The notation of R68. -/
theorem test_instrText : instrText (.add (.reg 2) (.reg 0) (.lit 19)) = "add r2 r0 19" := by decide

/-- The idiom of R68: `sub r0 r0 1` is `add r0 r0 32767` (P2). -/
theorem test_subIdiom : encode (subIdiom (.reg 0) (.reg 0) 1) = [9, 32768, 32768, 32767] := by decide

/-! ## WellFormed: the words an instruction term may hold -/

theorem smoke_source_literal : (Src.lit 32768).wf = false ∧ (Src.lit 32767).wf = true := by decide
theorem smoke_destination_address : (Dst.mem 32768).wf = false ∧ (Dst.mem 32767).wf = true := by decide
theorem smoke_one_source : Instr.wf (.push (.lit 32768)) = false ∧ Instr.wf (.jmp (.lit 40000)) = false ∧
    Instr.wf (.call (.lit 65535)) = false ∧ Instr.wf (.out (.lit 32768)) = false := by decide
theorem smoke_one_destination : Instr.wf (.pop (.mem 32768)) = false ∧ Instr.wf (.inp (.mem 32776)) = false := by decide
theorem smoke_two_operands : Instr.wf (.set (.mem 32768) (.lit 0)) = false ∧ Instr.wf (.not (.reg 0) (.lit 32768)) = false ∧
    Instr.wf (.rmem (.mem 32768) (.lit 0)) = false ∧ Instr.wf (.jt (.lit 32768) (.lit 0)) = false ∧
    Instr.wf (.jf (.lit 0) (.lit 32768)) = false ∧ Instr.wf (.wmem (.lit 32768) (.lit 0)) = false := by decide
theorem smoke_three_operands : Instr.wf (.add (.mem 32768) (.lit 0) (.lit 0)) = false ∧
    Instr.wf (.mult (.reg 0) (.lit 32768) (.lit 0)) = false ∧ Instr.wf (.mod (.reg 0) (.lit 0) (.lit 32768)) = false ∧
    Instr.wf (.eq (.mem 32768) (.lit 0) (.lit 0)) = false ∧ Instr.wf (.gt (.reg 0) (.lit 32768) (.lit 0)) = false ∧
    Instr.wf (.and (.reg 0) (.lit 0) (.lit 32768)) = false ∧ Instr.wf (.or (.reg 0) (.lit 0) (.lit 32768)) = false := by decide

/-! ## Dispatch and faults (V1 to V13) -/

theorem test_V1 : (machine []).status = .ended ∧ (machine []).pc = 0 := by decide
theorem test_V2 : faultStatus (machine [22]) = some (.faulted 1 0 [22]) := by decide
theorem test_V4 : faultStatus (machine [32768]) = some (.faulted 1 0 [32768]) := by decide
theorem test_V5 : faultStatus (machine [9, 32768, 1]) = some (.faulted 3 0 [3]) := by decide
theorem test_V7 : faultStatus (machine [1, 32768, 65535]) = some (.faulted 4 0 [1, 65535]) := by decide
theorem test_V8 : faultStatus (machine [7, 0, 40000]) = some (.faulted 4 0 [1, 40000]) := by decide
theorem test_V12 : faultStatus (machine [3, 40000]) = some (.faulted 4 0 [0, 40000]) := by decide

/-! ## Each instruction -/

theorem test_V20_halt : (nextState (step (machine [0]))).map (fun t => (t.halted, t.pc, t.status)) =
    some (true, 1, .halted) := by decide
theorem test_V21_noop : (nextState (step (machine [21]))).map (fun t => (t.halted, t.pc, t.status)) =
    some (false, 1, .ended) := by decide
theorem test_V31_set : regAfter 0 (machine [1, 32768, 32769] [(1, 40000)]) = some (40000, 3, .ended) := by decide
theorem test_V32_set_mem : memAfter 4 (machine [1, 4, 77, 0, 0]) = some (some 77, 3, .running) := by decide
theorem test_V34_push : stackAfter (machine [2, 32768] [(0, 65535)] [4]) = some ([4, 65535], 2, .ended) := by decide
theorem test_V35_pop : regAfter 1 (machine [3, 32769] [] [7]) = some (7, 2, .ended) := by decide
theorem test_V38_pop_mem : memAfter 1 (machine [3, 1] [] [9]) = some (some 9, 2, .ended) := by decide
theorem test_V41_eq : regAfter 0 (machine [4, 32768, 32769, 0] [(1, 32768)]) = some (0, 4, .ended) := by decide
theorem test_V42_eq : regAfter 0 (machine [4, 32768, 32768, 32768] [(0, 9)]) = some (1, 4, .ended) := by decide
theorem test_V44_gt : regAfter 0 (machine [5, 32768, 3, 3]) = some (0, 4, .ended) := by decide
theorem test_V45_gt : regAfter 0 (machine [5, 32768, 32769, 32767] [(1, 40000)]) = some (1, 4, .ended) := by decide
theorem test_V51_jmp : regAfter 2 (machine [6, 32770] [(2, 19)]) = some (19, 19, .ended) := by decide
theorem test_V55_jt : regAfter 0 (machine [7, 32768, 6]) = some (0, 3, .ended) := by decide
theorem test_V56_jt : regAfter 0 (machine [7, 32768, 0] [(0, 65535)]) = some (65535, 0, .running) := by decide
theorem test_V57_jf : regAfter 0 (machine [8, 32768, 100]) = some (0, 100, .ended) := by decide
theorem test_V58_jf : regAfter 0 (machine [8, 32768, 100] [(0, 32768)]) = some (32768, 3, .ended) := by decide
theorem test_V62_add : regAfter 0 (machine [9, 32768, 32769, 32769] [(1, 65535)]) = some (32766, 4, .ended) := by decide
theorem test_V86_add : regAfter 0 (machine [9, 32768, 32768, 32768] [(0, 20000)]) = some (7232, 4, .ended) := by decide
theorem test_V66_mult : regAfter 0 (machine [10, 32768, 32767, 32767]) = some (1, 4, .ended) := by decide
theorem test_V67_mult : regAfter 0 (machine [10, 32768, 256, 128]) = some (0, 4, .ended) := by decide
theorem test_V72_mod : regAfter 0 (machine [11, 32768, 32769, 32770] [(1, 65535), (2, 40000)]) = some (25535, 4, .ended) := by
  decide
theorem test_V76_mod : faultStatus (machine [11, 32768, 7, 32769]) = some (.faulted 5 0 []) := by decide
theorem test_V78_and : regAfter 0 (machine [12, 32768, 32769, 32770] [(1, 65535), (2, 32768)]) = some (32768, 4, .ended) := by
  decide
theorem test_V80_or : regAfter 0 (machine [13, 32768, 32769, 1] [(1, 32768)]) = some (32769, 4, .ended) := by decide
theorem test_V83_not : regAfter 0 (machine [14, 32768, 21845]) = some (10922, 3, .ended) := by decide
theorem test_V84_not : regAfter 0 (machine [14, 32768, 32769] [(1, 32768)]) = some (32767, 3, .ended) := by decide
theorem test_V91_rmem : regAfter 0 (machine [15, 32768, 1]) = some (32768, 3, .ended) := by decide
theorem test_V92_rmem : faultStatus (machine [15, 32768, 3]) = some (.faulted 3 0 [3]) := by decide
theorem test_V95_wmem : memAfter 4 (machine [16, 32769, 7, 0, 0] [(1, 4)]) = some (some 7, 3, .running) := by decide
theorem test_V96_wmem : faultStatus (machine [16, 5, 9]) = some (.faulted 3 0 [5]) := by decide
theorem test_V101_call : stackAfter (machine [17, 32768, 0] [(0, 2)]) = some ([2], 2, .running) := by decide
theorem test_call_full : faultStatus (machine [17, 6] [] [1] [] (some 1)) = some (.faulted 6 0 []) := by decide
theorem test_V102_ret : stackAfter (machine [18]) = some ([], 1, .halted) := by decide
theorem test_V103_ret : stackAfter (machine [18, 0, 0] [] [2]) = some ([], 2, .running) := by decide
theorem test_V111_out : portsAfter (machine [19, 32768] [(0, 40000)]) = some ([40000], [], 2, .ended) := by decide
theorem test_V112_in : regAfter 3 (machine [20, 32771] [] [] [65]) = some (65, 2, .ended) := by decide
/-- R37: RUNNING at construction, whatever the first instruction is. -/
theorem test_construction_status : (machine [20, 32768]).status = .running ∧ (machine [0]).status = .running := by decide
theorem test_V113_in : portsAfter (machine [20, 32768]) = some ([], [], 0, .waiting) := by decide

/-- V115: the byte is consumed, then the store faults. -/
theorem test_V115_in_fault : faultOf (step (machine [20, 5] [] [] [10])) = some (.memoryOutOfBounds 5 ⟨0, [], []⟩) := by decide

/-- V37: the store of a `pop` fails at N = 3. -/
theorem test_V37_pop_fault : faultStatus (machine [3, 5, 0] [] [1]) = some (.faulted 3 0 [5]) := by decide

/-! ## Witnesses: concrete states and operands that meet the hypotheses of each statement, clause by clause, at the ends of
their ranges. A statement without hypotheses has none. -/

/-- Images of 0 and of 65536 words, and images that are empty and not. -/
theorem witness_ConstructionSetsTheResetValues : ([] : List Word).length ≤ 65536 ∧
    (List.replicate 65536 (0 : Word)).length ≤ 65536 ∧ ([20, 32768] : List Word).length ≤ 65536 ∧ ([20, 32768] : List Word) ≠ [] := by
  exact ⟨by simp, by rw [List.length_replicate], by decide, by decide⟩

/-- An odd file, one just too long, the longest, and a pair of bytes. -/
theorem witness_LoadReadsLittleEndianPairs : ([1] : List Byte).length % 2 = 1 ∧
    ((List.replicate 131074 (0 : Byte)).length % 2 = 0 ∧ 2 * 65536 < (List.replicate 131074 (0 : Byte)).length) ∧
    ((List.replicate 131072 (0 : Byte)).length % 2 = 0 ∧ (List.replicate 131072 (0 : Byte)).length ≤ 2 * 65536) ∧
    ([9, 1] : List Byte)[2 * 0]? = some 9 ∧ ([9, 1] : List Byte)[2 * 0 + 1]? = some 1 := by
  simp only [List.length_replicate]
  decide

/-- Next states of a `halt`, of a `ret` on an empty and on a filled stack, and of another instruction. -/
theorem witness_OnlyHaltAndRetSetHalted : (∃ t, exec .halt (machine [0]) = .next t) ∧ (∃ t, exec .ret (machine [18]) = .next t) ∧
    (∃ t, exec .ret (machine [18, 0, 0] [] [2]) = .next t) ∧ ∃ t, exec .noop (machine [21]) = .next t :=
  ⟨⟨_, rfl⟩, ⟨_, rfl⟩, ⟨_, rfl⟩, ⟨_, rfl⟩⟩

theorem witness_OnlyFourInstructionsTouchTheStack : touchesStack .halt = false ∧
    touchesStack (.wmem (.reg 0) (.lit 0)) = false := by decide

/-- Next states of an `out`, of an `in` with and without a byte, and of another instruction. -/
theorem witness_OnlyOutAndInReachThePorts : (∃ t, exec (.out (.lit 65)) (machine [19, 65]) = .next t) ∧
    (∃ t, exec (.inp (.reg 3)) (machine [20, 32771] [] [] [65]) = .next t) ∧
    (∃ t, exec (.inp (.reg 3)) (machine [20, 32771]) = .next t) ∧ ∃ t, exec .noop (machine [21]) = .next t :=
  ⟨⟨_, rfl⟩, ⟨_, rfl⟩, ⟨_, rfl⟩, ⟨_, rfl⟩⟩

/-- Next states of a waiting and of a served `in`, of a transfer, of a branch not taken, and of a step past 65535. -/
theorem witness_PcAfterEveryInstruction : (∃ t, exec (.inp (.reg 3)) (machine [20, 32771]) = .next t) ∧
    (∃ t, exec (.inp (.reg 3)) (machine [20, 32771] [] [] [65]) = .next t) ∧
    (∃ t, exec (.jmp (.lit 32767)) (machine [6, 32767]) = .next t) ∧
    (∃ t, exec (.jt (.lit 0) (.lit 6)) (machine [7, 0, 6]) = .next t) ∧
    ∃ t, exec .noop (machine [] [] [] [] none 65535) = .next t :=
  ⟨⟨_, rfl⟩, ⟨_, rfl⟩, ⟨_, rfl⟩, ⟨_, rfl⟩, ⟨_, rfl⟩⟩

theorem witness_ConstructedMachinesMeetTheInvariant : (∃ s, construct [1, 32768, 5] (some 0) = .ok s) ∧ State.reset.Inv :=
  ⟨⟨_, rfl⟩, by decide, fun c h => by cases h⟩

/-- A machine with room for one stack entry, its stack empty, pushes. -/
theorem witness_EveryStepKeepsTheInvariant : (machine [2, 5] [] [] [] (some 1)).Inv ∧
    ∃ t, step (machine [2, 5] [] [] [] (some 1)) = .next t :=
  ⟨⟨by decide, fun c h => by simp [machine, State.reset] at h ⊢⟩, ⟨_, rfl⟩⟩

/-- The last word of a memory, and the address after it. -/
theorem witness_MemoryReadsTheLastWrite : (∃ n, (Memory.ofImage [7, 8]).write 1 0x1234 = some n) ∧
    (Memory.ofImage [7, 8]).write 2 5 = none ∧ (Memory.ofImage [7, 8]).read 2 = none := ⟨⟨_, rfl⟩, rfl, rfl⟩

/-- Two ways to the same contents: written to 0, and never other than 0. -/
theorem witness_CanonicalMemoriesThatReadAlikeAreEqual : ((Memory.ofImage [7, 8]).setWord 0 0).wf ∧
    (Memory.ofImage [0, 8]).wf ∧ ((Memory.ofImage [7, 8]).setWord 0 0).size = (Memory.ofImage [0, 8]).size ∧
    ∀ a, ((Memory.ofImage [7, 8]).setWord 0 0).read a = (Memory.ofImage [0, 8]).read a :=
  ⟨by decide, by decide, by decide,
    fun a => congrArg (·.read a) (by decide : (Memory.ofImage [7, 8]).setWord 0 0 = Memory.ofImage [0, 8])⟩

theorem witness_ResolveReadsWhatStoreWrote : (0 : RegIdx) ≠ 7 := by decide

/-- A register, the last word of memory, and the address after it. -/
theorem witness_StoreWritesItsTargetOnly : StoreOk (.reg 7) (machine []) ∧ StoreOk (.mem 2) (machine [1, 3, 9]) ∧
    ¬ StoreOk (.mem 3) (machine [1, 3, 9]) := by simp only [StoreOk]; decide

/-- V94, a `set` that writes the word after itself, a `pop`, an `rmem` and an `in` into the word after themselves. -/
theorem witness_StoredWordsAreFetched :
    (∃ t, exec (.wmem (.lit 3) (.lit 66)) (machine [16, 3, 66, 0]) = .next t ∧ t.wordAddr 0 = 3) ∧
    storeAddr (.wmem (.lit 3) (.lit 66)) (machine [16, 3, 66, 0]) = some 3 ∧
    (∃ t, exec (.set (.mem 3) (.lit 9)) (machine [1, 3, 9, 21]) = .next t ∧ t.wordAddr 0 = 3) ∧
    (∃ t, exec (.pop (.mem 2)) (machine [3, 2, 0] [] [18]) = .next t ∧ t.wordAddr 0 = 2) ∧
    (∃ t, exec (.rmem (.mem 3) (.lit 0)) (machine [15, 3, 0, 0]) = .next t ∧ t.wordAddr 0 = 3) ∧
    (∃ t, exec (.inp (.mem 2)) (machine [20, 2, 0] [] [] [21]) = .next t ∧ t.wordAddr 0 = 2) ∧
    (machine [20, 2, 0] [] [] [21]).input ≠ [] :=
  ⟨⟨_, rfl, rfl⟩, rfl, ⟨_, rfl, rfl⟩, ⟨_, rfl, rfl⟩, ⟨_, rfl, rfl⟩, ⟨_, rfl, rfl⟩, by decide⟩

/-- The ends of the operand ranges. -/
theorem witness_DecodeOfEncodeIsTheInstruction : Instr.wf (.add (.mem 32767) (.lit 0) (.reg 7)) = true ∧
    Instr.wf (.set (.mem 0) (.lit 32767)) = true := by decide

theorem witness_DecodedWordsAreAnEncoding : decode [3, 32775, 5] = .ok (.pop (.reg 7)) := by decide

theorem witness_StepRunsTheDecodedInstruction : (machine [1, 32768, 5]).Running ∧
    (machine [1, 32768, 5]).fetchDecode = .ok (.set (.reg 0) (.lit 5)) := by simp only [State.Running]; decide

/-- An instruction whose words go round from 65535 to 0: `set 0 0`, its opcode word at 65535. -/
theorem witness_InstructionInMemoryRuns : ∃ s : State, s.Running ∧ Instr.wf (.set (.mem 0) (.lit 0)) = true ∧
    ∀ j w, (encode (.set (.mem 0) (.lit 0)))[j]? = some w → s.instrWord j = some w := by
  refine ⟨{ State.reset with mem := ⟨65536, [(131070, 1)]⟩, pc := 65535 }, ?_, by decide, fun j w h => ?_⟩
  · simp only [State.Running]; decide
  · match j, h with
    | 0, h | 1, h | 2, h => exact Eq.trans (by decide) h
    | j + 3, h => simp [encode, Instr.operandWords] at h

/-- A halted machine, one with pc = N, one with pc = N - 1. -/
theorem witness_LoopCheckEndsTheRun : ((machine [0]).setHalted).halted = true ∧
    ((machine [0] [] [] [] none 1).halted = false ∧ (machine [0] [] [] [] none 1).mem.size ≤ (1 : Word).toNat) ∧
    (machine [21, 0] [] [] [] none 1).Running := by simp only [State.Running]; decide

/-- A first step that leaves an `in` at the pc, one that is an `in`, and a machine that waits. -/
theorem witness_WaitingEndsWithAByte :
    ((machine [21, 20, 32768]).Running ∧ ∃ t, step (machine [21, 20, 32768]) = .next t ∧ t.Running ∧ t.waits = true) ∧
    ((machine [20, 32768]).Running ∧ ∃ t, step (machine [20, 32768]) = .next t ∧ t.Running ∧ t.waits = true) ∧
    (machine [20, 32768]).beginStep.status = .waiting := by
  simp only [State.Running]
  exact ⟨⟨by decide, _, rfl, by decide, by decide⟩, ⟨by decide, _, rfl, by decide, by decide⟩, by decide⟩

/-- Running, with an `in` that has a byte and with another instruction; halted, with an `in` that has none; and ended. -/
theorem witness_EarlyInputOnlyReleasesAWait :
    ¬ ((machine [20, 32768] [] [] [65]).Running ∧ (machine [20, 32768] [] [] [65]).waits = true) ∧
    ¬ ((machine [21]).Running ∧ (machine [21]).waits = true) ∧
    ¬ ((machine [20, 32768]).setHalted.Running ∧ (machine [20, 32768]).setHalted.waits = true) ∧
    ¬ ((machine []).Running ∧ (machine []).waits = true) := by simp only [State.Running]; decide

/-- A `noop` in the last word. -/
theorem witness_NoopOnlyMovesThePc : (machine [21]).halted = false ∧ (machine [21]).mem.size = (machine [21]).pc.toNat + 1 ∧
    (machine [21]).mem.size < 65536 := by decide

/-- The rows with operands: opcode and operand count (R64). -/
def rows : List (Nat × Nat) :=
  [(1, 2), (2, 1), (3, 1), (4, 3), (5, 3), (6, 1), (7, 2), (8, 2), (9, 3), (10, 3), (11, 3), (12, 3), (13, 3), (14, 2), (15, 2),
    (16, 2), (17, 1), (19, 1), (20, 1)]

/-- For every row with operands, every operand word in turn is the first missing one: the premises of `MissingOperandFaults`, in
the states the conclusion is about. -/
theorem witness_CommonFaults_missing : ∀ row ∈ rows, ∀ l, l < row.2 →
    let s := machine (BitVec.ofNat 16 row.1 :: List.replicate l 0)
    (s.halted = false ∧ s.pc.toNat < s.mem.size) ∧ s.instrWord 0 = some (BitVec.ofNat 16 row.1) ∧
      (∀ i, i < l + 1 → s.instrWord i ≠ none) ∧ s.instrWord (l + 1) = none := by decide

/-- For every row with operands, every operand in turn is the first illegal one, with the lowest illegal word: the premises of
`IllegalOperandFaults`. -/
theorem witness_CommonFaults_illegal : ∀ row ∈ rows, ∀ j, j < row.2 →
    let s := machine (BitVec.ofNat 16 row.1 :: List.replicate j 32775 ++ List.replicate (row.2 - j) 32776)
    (s.halted = false ∧ s.pc.toNat < s.mem.size) ∧ s.instrWord 0 = some (BitVec.ofNat 16 row.1) ∧
      (∀ i, i ≤ row.2 → s.instrWord i ≠ none) ∧ s.instrWord (j + 1) = some 32776 ∧
      ∀ i, i < j → s.instrWord (i + 1) = some 32775 := by decide

/-- The two clauses of every instruction with a destination (`set`, `eq`, `gt`, `add`, `mult`, `and`, `or`, `not`, and the
second part of `pop`, `mod`, `rmem`, `in`): both kinds of destination that exist, and one that does not. -/
theorem witness_destinations : StoreOk (.reg 0) (machine [1, 32768, 5]) ∧ StoreOk (.mem 2) (machine [1, 2, 5]) ∧
    ¬ StoreOk (.mem 3) (machine [1, 3, 5]) ∧ ¬ StoreOk (.mem 32767) (machine [1, 32767, 5]) := by
  simp only [StoreOk]; decide

/-- `push` and `call`: no capacity, room for one more, full. -/
theorem witness_stack_room : (machine [2, 5]).params.stackCapacity ≠ some (machine [2, 5]).stack.length ∧
    (machine [2, 5] [] [] [] (some 1)).params.stackCapacity ≠ some (machine [2, 5] [] [] [] (some 1)).stack.length ∧
    (machine [2, 5] [] [7] [] (some 1)).params.stackCapacity = some (machine [2, 5] [] [7] [] (some 1)).stack.length ∧
    (machine [17, 6] [] [] [] (some 0)).params.stackCapacity = some (machine [17, 6] [] [] [] (some 0)).stack.length := by
  decide

/-- `pop` and `ret`: an empty stack, and a stack with a top. -/
theorem witness_stack_top : (machine [18]).stack = [] ∧ (machine [18] [] [4, 2]).stack = [4] ++ [2] := by decide

theorem witness_PopUndoesPush : ∃ t, exec (.push (.lit 5)) (machine [2, 5, 3, 32768] [] [4]) = .next t := ⟨_, rfl⟩

/-- `jmp` to N and beyond, and inside. -/
theorem witness_JmpJumps : (machine [6, 2]).halted = false ∧ (machine [6, 2]).mem.size ≤ (resolve (.lit 2) (machine [6, 2])).toNat ∧
    (machine [6, 0]).halted = false := by decide

/-- Every transfer: at N (ends), at N - 1 (goes on), by a taken branch, and by a `ret`. -/
theorem witness_TransferTargetsAreJudgedByTheLoopCheck :
    (transferTarget (.jmp (.lit 2)) (machine [6, 2]) = some 2 ∧ (∃ t, exec (.jmp (.lit 2)) (machine [6, 2]) = .next t) ∧
      (machine [6, 2]).mem.size ≤ (2 : Word).toNat) ∧
    (transferTarget (.call (.lit 1)) (machine [17, 1]) = some 1 ∧ (∃ t, exec (.call (.lit 1)) (machine [17, 1]) = .next t) ∧
      (1 : Word).toNat < (machine [17, 1]).mem.size) ∧
    (transferTarget (.jt (.lit 1) (.lit 0)) (machine [7, 1, 0]) = some 0 ∧
      ∃ t, exec (.jt (.lit 1) (.lit 0)) (machine [7, 1, 0]) = .next t) ∧
    (transferTarget (.jf (.lit 0) (.lit 0)) (machine [8, 0, 0]) = some 0 ∧
      ∃ t, exec (.jf (.lit 0) (.lit 0)) (machine [8, 0, 0]) = .next t) ∧
    transferTarget .ret (machine [18] [] [65535]) = some 65535 ∧ ∃ t, exec .ret (machine [18] [] [65535]) = .next t :=
  ⟨⟨by decide, ⟨_, rfl⟩, by decide⟩, ⟨by decide, ⟨_, rfl⟩, by decide⟩, ⟨by decide, ⟨_, rfl⟩⟩, ⟨by decide, ⟨_, rfl⟩⟩,
    by decide, ⟨_, rfl⟩⟩

/-- `mod`: divisor 0, and another. -/
theorem witness_ModWritesTheRemainder : resolve (.reg 1) (machine [11, 32768, 7, 32769]) = 0 ∧
    resolve (.lit 1) (machine [11, 32768, 7, 1]) ≠ 0 := by decide

/-- Next states of the eight instructions, with operands that exceed 32767 where the statement speaks of them. -/
theorem witness_ResultDomains :
    (∃ t, exec (.add (.reg 0) (.reg 1) (.reg 1)) (machine [] [(1, 65535)]) = .next t) ∧
    (∃ t, exec (.mult (.reg 0) (.reg 1) (.reg 1)) (machine [] [(1, 65535)]) = .next t) ∧
    (∃ t, exec (.not (.reg 0) (.reg 1)) (machine [] [(1, 65535)]) = .next t) ∧
    (∃ t, exec (.mod (.reg 0) (.reg 1) (.reg 1)) (machine [] [(1, 40000)]) = .next t) ∧
    (∃ t, exec (.and (.reg 0) (.reg 1) (.reg 1)) (machine [] [(1, 65535)]) = .next t ∧
      dstWord (.reg 0) t = some 65535 ∧ 32768 ≤ (65535 : Word).toNat ∧ (Src.reg 1).wf = true) ∧
    (∃ t, exec (.or (.reg 0) (.reg 1) (.lit 1)) (machine [] [(1, 32768)]) = .next t) ∧
    (∃ t, exec (.eq (.reg 0) (.reg 1) (.reg 1)) (machine []) = .next t) ∧
    ∃ t, exec (.gt (.reg 0) (.reg 1) (.reg 1)) (machine []) = .next t :=
  ⟨⟨_, rfl⟩, ⟨_, rfl⟩, ⟨_, rfl⟩, ⟨_, rfl⟩, ⟨_, rfl, by decide, by decide, by decide⟩, ⟨_, rfl⟩, ⟨_, rfl⟩,
    ⟨_, rfl⟩⟩

/-- Both instructions, into a register and into memory. -/
theorem witness_WrappingArithmeticAgrees : (∃ t, exec (.add (.mem 0) (.lit 32767) (.lit 1)) (machine [9, 0, 32767, 1]) = .next t) ∧
    ∃ t, exec (.mult (.reg 0) (.lit 32767) (.lit 32767)) (machine []) = .next t := ⟨⟨_, rfl⟩, ⟨_, rfl⟩⟩

theorem witness_ModObeysDivisionWithRemainder :
    ∃ t, exec (.mod (.reg 0) (.lit 12345) (.lit 1)) (machine []) = .next t := ⟨_, rfl⟩

/-- The three instructions, and a second `not` after the first. -/
theorem witness_BitwiseLaws : (∃ t, exec (.and (.reg 0) (.lit 12) (.lit 10)) (machine []) = .next t) ∧
    (∃ t, exec (.or (.reg 0) (.lit 12) (.lit 10)) (machine []) = .next t) ∧
    ∃ t, exec (.not (.reg 0) (.lit 21845)) (machine []) = .next t ∧ ∃ u, exec (.not (.reg 1) (.reg 0)) t = .next u :=
  ⟨⟨_, rfl⟩, ⟨_, rfl⟩, ⟨_, rfl, ⟨_, rfl⟩⟩⟩

/-- `rmem` and `wmem`: the last word, and the address after it. -/
theorem witness_memory_addresses : (resolve (.lit 2) (machine [15, 32768, 2])).toNat < (machine [15, 32768, 2]).mem.size ∧
    (machine [15, 32768, 3]).mem.size ≤ (resolve (.lit 3) (machine [15, 32768, 3])).toNat ∧
    (machine [16, 32769, 7] [(1, 65535)]).mem.size ≤ (resolve (.reg 1) (machine [16, 32769, 7] [(1, 65535)])).toNat := by decide

/-- The call's own result, and another state with the same stack. -/
theorem witness_RetReturnsFromCall : ∃ t, exec (.call (.lit 6)) (machine [17, 6] [] [] [] (some 1)) = .next t ∧
    t.stack = t.stack ∧ (machine [17, 6, 18] [(0, 9)] [2] [] none 2).stack = t.stack := ⟨_, rfl, rfl, rfl⟩

/-- `in`: no byte, at the pc of a running machine; and one byte. -/
theorem witness_InTakesAByteOrWaits : ((machine [20, 32768]).Running ∧ (machine [20, 32768]).fetchDecode = .ok (.inp (.reg 0)) ∧
    (machine [20, 32768]).input = []) ∧ (machine [20, 32768] [] [] [255]).input = 255 :: [] := by
  simp only [State.Running]; decide

/-- Next states with a destination register, a destination in memory and none. -/
theorem witness_FrameOfEveryInstruction :
    (∃ t, exec (.set (.reg 0) (.lit 5)) (machine [1, 32768, 5]) = .next t) ∧ destReg (.set (.reg 0) (.lit 5)) ≠ some 7 ∧
    storeAddr (.set (.reg 0) (.lit 5)) (machine [1, 32768, 5]) = none ∧
    (∃ t, exec (.wmem (.reg 1) (.lit 7)) (machine [16, 32769, 7] [(1, 2)]) = .next t) ∧
    storeAddr (.wmem (.reg 1) (.lit 7)) (machine [16, 32769, 7] [(1, 2)]) = some 2 :=
  ⟨⟨_, rfl⟩, by decide, by decide, ⟨_, rfl⟩, by decide⟩

/-- The first illegal opcode word and the last. -/
theorem witness_UnknownOpcodesFault : ((machine [22]).Running ∧ (machine [22]).instrWord 0 = some 22 ∧ 22 ≤ (22 : Word).toNat) ∧
    ((machine [65535]).Running ∧ (machine [65535]).instrWord 0 = some 65535 ∧ 22 ≤ (65535 : Word).toNat) ∧
    step (machine [22]) = .fault (.unknownOpcode 22 ((machine [22]).site 0)) :=
  ⟨by simp only [State.Running]; decide, by simp only [State.Running]; decide, rfl⟩

theorem witness_OnlyPopUnderflows : (machine [3, 32768]).stack = [] ∧
    step (machine [3, 32768]) = .fault (.stackUnderflow ((machine [3, 32768]).site 0)) := ⟨rfl, rfl⟩

/-- A missing operand word, a destination, an `rmem` and a `wmem`. -/
theorem witness_MemoryOutOfBoundsNamesAMissingAddress :
    step (machine [9, 32768, 1]) = .fault (.memoryOutOfBounds 3 ⟨0, [], []⟩) ∧
    step (machine [1, 3, 9]) = .fault (.memoryOutOfBounds 3 ⟨0, [], []⟩) ∧
    step (machine [15, 32768, 3]) = .fault (.memoryOutOfBounds 3 ⟨0, [], []⟩) ∧
    step (machine [16, 5, 9]) = .fault (.memoryOutOfBounds 5 ⟨0, [], []⟩) := ⟨rfl, rfl, rfl, rfl⟩

theorem witness_OnlyModDividesByZero : resolve (.lit 0) (machine [11, 32768, 7, 0, 22]) = 0 ∧
    step (machine [11, 32768, 7, 0, 22]) = .fault (.divideByZero ⟨0, [], []⟩) := ⟨rfl, rfl⟩

theorem witness_OnlyAFullFiniteStackOverflows :
    (machine [2, 5] [] [7] [] (some 1)).params.stackCapacity = some (machine [2, 5] [] [7] [] (some 1)).stack.length ∧
    step (machine [2, 5] [] [7] [] (some 1)) = .fault (.stackOverflow ⟨0, [], []⟩) := ⟨rfl, rfl⟩

end Sys2Proof.Tests
end

section
/-! Proofs. The load port word by word, and an update of the state that the instructions neither read nor undo: what an
instruction answers after it is what it answers before it, updated. -/

namespace Sys2Proof.Machine

variable {s t : State}

/-! ## The load port (R33) -/

/-- A file has one word per complete pair of bytes. -/
@[simp] theorem wordsOfBytes_length (bytes : List Byte) : (wordsOfBytes bytes).length = bytes.length / 2 := by
  induction bytes using wordsOfBytes.induct with
  | case1 lo hi rest ih => simp only [wordsOfBytes, List.length_cons, ih]; omega
  | case2 bytes short =>
    rcases bytes with _ | ⟨b, _ | ⟨c, rest⟩⟩
    · rfl
    · simp [wordsOfBytes]
    · exact absurd rfl (short b c rest)

/-- Word `j` of a file is its byte pair `2 * j`, `2 * j + 1`. -/
theorem getElem?_wordsOfBytes {bytes : List Byte} {j : Nat} {lo hi : Byte} (hlo : bytes[2 * j]? = some lo)
    (hhi : bytes[2 * j + 1]? = some hi) : (wordsOfBytes bytes)[j]? = some (wordOfBytes lo hi) := by
  induction bytes using wordsOfBytes.induct generalizing j with
  | case1 lo' hi' rest ih =>
    cases j with
    | zero => cases hlo; cases hhi; rfl
    | succ j => exact ih hlo hhi
  | case2 bytes short =>
    rcases bytes with _ | ⟨b, _ | ⟨c, rest⟩⟩
    · cases hlo
    · cases hhi
    · exact absurd rfl (short b c rest)

theorem construct_of_le {image : List Word} (h : image.length ≤ 65536) (capacity : Option Nat) :
    construct image capacity = .ok { State.reset with params := ⟨capacity⟩, mem := Memory.ofImage image } := if_pos h

theorem construct_of_gt {image : List Word} (h : 65536 < image.length) (capacity : Option Nat) :
    construct image capacity = .error .tooLong := if_neg (Nat.not_le.2 h)

theorem loadFile_of_even {bytes : List Byte} (h : bytes.length % 2 = 0) (capacity : Option Nat) :
    loadFile bytes capacity = construct (wordsOfBytes bytes) capacity := if_pos h

theorem loadFile_of_odd {bytes : List Byte} (h : bytes.length % 2 = 1) (capacity : Option Nat) :
    loadFile bytes capacity = .error .oddLength := if_neg (by omega)

/-- Settles O3: an even file is constructed from its words, and an image reads back word by word. -/
theorem loadReadsLittleEndianPairs : Obligations.LoadReadsLittleEndianPairs := by
  intro bytes capacity
  refine ⟨fun odd => loadFile_of_odd odd capacity, fun even long => ?_, fun even fits => ?_⟩
  · rw [loadFile_of_even even, construct_of_gt (by rw [wordsOfBytes_length]; omega)]
  · refine ⟨_, (loadFile_of_even even capacity).trans (construct_of_le (by rw [wordsOfBytes_length]; omega) capacity), ?_,
      fun j lo hi hlo hhi => ⟨wordOfBytes lo hi, ?_, wordOfBytes_toNat lo hi⟩⟩
    · simp only [Memory.ofImage, wordsOfBytes_length]; omega
    · rw [Memory.read_ofImage, getElem?_wordsOfBytes hlo hhi]

/-! ## Updates that instructions do not see -/

/-- `f` leaves memory, registers, pc and output as they are and commutes with every update of them: whatever else it changes
is not seen by an operation on these. `g` is what it does to the site of a fault. -/
structure Unseen (f : State → State) (g : FaultSite → FaultSite) : Prop where
  mem : ∀ s, (f s).mem = s.mem
  regs : ∀ s, (f s).regs = s.regs
  pc : ∀ s, (f s).pc = s.pc
  output : ∀ s, (f s).output = s.output
  site : ∀ s ia, (f s).site ia = g (s.site ia)
  setMem : ∀ s m, (f s).setMem m = f (s.setMem m)
  setReg : ∀ s r v, (f s).setReg r v = f (s.setReg r v)
  jump : ∀ s a, (f s).jump a = f (s.jump a)
  setOutput : ∀ s l, (f s).setOutput l = f (s.setOutput l)

theorem setStack_unseen (l : List Word) : Unseen (·.setStack l) id := by constructor <;> intros <;> rfl

section
variable {f : State → State} {g : FaultSite → FaultSite} (hf : Unseen f g)
include hf

theorem Unseen.resolve (o : Src) (s : State) : resolve o (f s) = resolve o s := by
  cases o with
  | lit v => rfl
  | reg r => simp only [Machine.resolve, State.reg, hf.regs]

theorem Unseen.advance (s : State) (n : Nat) : (f s).advance n = f (s.advance n) := by
  simp only [State.advance, hf.pc, hf.jump]

theorem Unseen.emit (s : State) (v : Word) : (f s).emit v = f (s.emit v) := by
  simp only [State.emit_eq, hf.output, hf.setOutput]

theorem Unseen.memWrite (ia addr v : Word) (s : State) :
    memWrite ia addr v (f s) = mapResult f g (memWrite ia addr v s) := by
  by_cases h : addr.toNat < s.mem.size
  · rw [memWrite_of_lt (by rwa [hf.mem]), memWrite_of_lt h, hf.mem, hf.setMem]; rfl
  · have h := Nat.le_of_not_lt h
    rw [memWrite_of_ge (by rwa [hf.mem]), memWrite_of_ge h, hf.site]; rfl

theorem Unseen.store (ia : Word) (d : Dst) (v : Word) (s : State) :
    store ia d v (f s) = mapResult f g (store ia d v s) := by
  cases d with
  | reg r => rw [store_reg, store_reg, hf.setReg]; rfl
  | mem addr => exact hf.memWrite ia addr v s

/-- An `in` does not see the update either, if it leaves the input as it is. -/
theorem Unseen.execIn (hin : ∀ s, (f s).input = s.input) (hset : ∀ s bs, (f s).setInput bs = f (s.setInput bs))
    (a : Dst) (s : State) : execIn a (f s) = mapResult f g (execIn a s) := by
  cases h : s.input with
  | nil => rw [execIn_of_nil a h, execIn_of_nil a ((hin s).trans h)]; rfl
  | cons b bs => rw [execIn_of_cons a h, execIn_of_cons a ((hin s).trans h), hf.advance, hset, hf.pc, hf.store]

/-- The instructions that touch neither the stack, `halted` nor the input do not see the update. -/
theorem Unseen.exec {i : Instr} (hstack : touchesStack i = false) (hhalt : i ≠ .halt) (hinp : ∀ a, i ≠ .inp a) (s : State) :
    exec i (f s) = mapResult f g (exec i s) := by
  cases i with
  | halt => exact absurd rfl hhalt
  | inp a => exact absurd rfl (hinp a)
  | push | pop | call | ret => cases hstack
  | set | eq | gt | add | mult | and | or | not =>
    simp only [Machine.exec, execSet, execEq, execGt, execAdd, execMult, execAnd, execOr, execNot, hf.pc, hf.resolve,
      hf.advance, hf.store]
  | wmem a b => simp only [Machine.exec, execWmem, hf.pc, hf.resolve, hf.advance, hf.memWrite]
  | noop => simp only [Machine.exec, execNoop, hf.advance, mapResult]
  | jmp a => simp only [Machine.exec, execJmp, hf.resolve, hf.jump, mapResult]
  | out a => simp only [Machine.exec, execOut, hf.resolve, hf.advance, hf.emit, mapResult]
  | jt a b | jf a b =>
    simp only [Machine.exec, execJt, execJf, hf.resolve, hf.advance, hf.jump, mapResult, apply_ite f]
  | mod a b c =>
    by_cases h : Machine.resolve c s = 0
    · simp only [Machine.exec, execMod_of_zero a b h, execMod_of_zero a b ((hf.resolve c s).trans h), hf.pc, hf.site, mapResult]
    · have h' : Machine.resolve c (f s) ≠ 0 := by rwa [hf.resolve]
      simp only [Machine.exec, execMod_of_ne_zero a b h, execMod_of_ne_zero a b h', hf.pc, hf.resolve, hf.advance, hf.store]
  | rmem a b =>
    simp only [Machine.exec]
    by_cases h : (Machine.resolve b s).toNat < s.mem.size
    · rw [execRmem_of_lt a h, execRmem_of_lt a (by rwa [hf.resolve, hf.mem]), hf.pc, hf.resolve, hf.mem, hf.advance, hf.store]
    · have h := Nat.le_of_not_lt h
      rw [execRmem_of_ge a h, execRmem_of_ge a (by rwa [hf.resolve, hf.mem]), hf.pc, hf.resolve, hf.site]; rfl

end

/-- Settles O5: the stack is unseen by the instructions outside the four, and `halt` only sets `halted`. -/
theorem onlyFourInstructionsTouchTheStack : Obligations.OnlyFourInstructionsTouchTheStack := by
  intro i s l hi
  change exec i (s.setStack l) = mapResult (·.setStack l) id (exec i s)
  have unseen := setStack_unseen l
  by_cases hhalt : i = .halt
  · subst hhalt; rfl
  · by_cases hinp : ∃ a, i = .inp a
    · obtain ⟨a, rfl⟩ := hinp
      exact unseen.execIn (fun _ => rfl) (fun _ _ => rfl) a s
    · exact unseen.exec hi hhalt (not_exists.1 hinp) s

/-! ## The flag `halted` (R30) -/

/-- The state with another value of `halted`. -/
def State.withHalted (s : State) (h : Bool) : State := { s with halted := h }

theorem withHalted_unseen (h : Bool) : Unseen (·.withHalted h) id := by constructor <;> intros <;> rfl

/-- An instruction that does not set `halted` passes on any value of it, and answers the same otherwise. -/
theorem exec_withHalted {i : Instr} (hhalt : i ≠ .halt) (hret : i = .ret → s.stack ≠ []) (h : Bool) :
    exec i (s.withHalted h) = mapResult (·.withHalted h) id (exec i s) := by
  have unseen := withHalted_unseen h
  cases i with
  | inp a => exact unseen.execIn (fun _ => rfl) (fun _ _ => rfl) a s
  | ret =>
    obtain hs | ⟨l, v, hs⟩ := List.eq_nil_or_concat' s.stack
    · exact absurd hs (hret rfl)
    · simp only [exec, execRet_of_concat hs, execRet_of_concat (s := s.withHalted h) hs]; rfl
  | pop a =>
    obtain hs | ⟨l, v, hs⟩ := List.eq_nil_or_concat' s.stack
    · simp only [exec, execPop_of_nil a hs, execPop_of_nil (s := s.withHalted h) a hs]; rfl
    · simp only [exec, execPop_of_concat a hs, execPop_of_concat (s := s.withHalted h) a hs]
      exact unseen.store s.pc a v ((s.advance 2).setStack l)
  | push a =>
    by_cases hs : s.params.stackCapacity = some s.stack.length
    · simp only [exec, execPush_of_full a hs, execPush_of_full (s := s.withHalted h) a hs]; rfl
    · simp only [exec, execPush_of_room a hs, execPush_of_room (s := s.withHalted h) a hs, unseen.resolve]; rfl
  | call a =>
    by_cases hs : s.params.stackCapacity = some s.stack.length
    · simp only [exec, execCall_of_full a hs, execCall_of_full (s := s.withHalted h) a hs]; rfl
    · simp only [exec, execCall_of_room a hs, execCall_of_room (s := s.withHalted h) a hs, unseen.resolve]; rfl
  | _ => exact unseen.exec rfl hhalt (by simp) s

/-- The last value given to `halted` is the one that stays. -/
theorem mapResult_withHalted_withHalted (h k : Bool) (r : Result) :
    mapResult (·.withHalted k) id (mapResult (·.withHalted h) id r) = mapResult (·.withHalted k) id r := by
  cases r with
  | next t => rfl
  | fault f => cases f <;> rfl
  | refused r => rfl

/-- No instruction reads `halted`: its value before does not matter but for `halted` itself. -/
theorem exec_ignores_halted (i : Instr) (s : State) (h k : Bool) :
    mapResult (·.withHalted k) id (exec i (s.withHalted h)) = mapResult (·.withHalted k) id (exec i s) := by
  by_cases hhalt : i = .halt
  · subst hhalt; rfl
  · by_cases hret : i = .ret ∧ s.stack = []
    · obtain ⟨rfl, hs⟩ := hret
      simp only [exec, execRet_of_nil hs, execRet_of_nil (s := s.withHalted h) hs]; rfl
    · rw [exec_withHalted hhalt (not_and.1 hret), mapResult_withHalted_withHalted]

/-- Store leaves `halted` as it was. -/
theorem halted_of_store {ia v : Word} {d : Dst} (h : store ia d v s = .next t) : t.halted = s.halted := by
  obtain ⟨r, -, rfl⟩ | ⟨a, -, -, rfl⟩ := store_eq_next.1 h
  · rfl
  · rfl

/-- What every instruction leaves in `halted`. -/
theorem halted_of_exec {i : Instr} (h : exec i s = .next t) :
    t.halted = (s.halted || decide (i = .halt) || decide (i = .ret ∧ s.stack = [])) := by
  obtain ⟨d, v, u, hu, hstore⟩ | ⟨a, b, rfl, -, rfl⟩ | hno | ⟨a, rfl, -, rfl⟩ := exec_eq_next h
  · have hhalt : i ≠ .halt := by rintro rfl; cases hu.dst
    have hret : i ≠ .ret := by rintro rfl; cases hu.dst
    simp [halted_of_store hstore, hu.halted, hhalt, hret]
  · simp
  · exact hno.halted
  · simp

/-- Settles O4, by what each instruction leaves in `halted` and by what it answers with another value of it. -/
theorem onlyHaltAndRetSetHalted : Obligations.OnlyHaltAndRetSetHalted :=
  ⟨fun i s t h => by simp [halted_of_exec h, or_assoc], fun i s h => exec_ignores_halted i s h false⟩

end Sys2Proof.Machine
end

section
/-! Proofs. The operand resolver (20_memory.md R44, R45): what a Store leaves behind and leaves alone, and what Resolve reads
afterwards. -/

namespace Sys2Proof.Machine

/-! ## What a Store changes, and its frame (R45) -/

theorem stored_setReg (r : RegIdx) (v : Word) (s : State) : Stored (.reg r) v s (s.setReg r v) :=
  ⟨rfl, s.setReg_reg_same r v, fun _ hq => s.setReg_reg_other hq v, fun _ => rfl⟩

theorem stored_setMem {addr : Word} {s : State} (h : addr.toNat < s.mem.size) (v : Word) :
    Stored (.mem addr) v s (s.setMem (s.mem.setWord addr.toNat v)) :=
  ⟨rfl, Memory.read_eq_some.2 ⟨h, s.mem.getWord_setWord_same addr.toNat v⟩, fun _ => rfl,
    fun _ hlow hhigh => s.mem.readByte_setWord_other hlow hhigh v⟩

theorem sameRest_setReg (r : RegIdx) (v : Word) (s : State) : SameRest s (s.setReg r v) :=
  ⟨rfl, rfl, rfl, rfl, rfl, rfl⟩

theorem sameRest_setMem (m : Memory) (s : State) : SameRest s (s.setMem m) :=
  ⟨rfl, rfl, rfl, rfl, rfl, rfl⟩

/-- A Store to a place that exists completes, with its whole frame. -/
theorem store_of_ok {d : Dst} {s : State} (h : StoreOk d s) (ia v : Word) :
    ∃ t, store ia d v s = .next t ∧ Stored d v s t ∧ t.pc = s.pc ∧ SameRest s t := by
  cases d with
  | reg r => exact ⟨_, store_reg r, stored_setReg r v s, rfl, sameRest_setReg r v s⟩
  | mem addr => exact ⟨_, memWrite_of_lt h, stored_setMem h v, rfl, sameRest_setMem _ s⟩

/-- Only a memory address of N or more is no place to store to, and it is the address the fault names. -/
theorem store_of_not_ok {d : Dst} {s : State} (h : ¬ StoreOk d s) (ia v : Word) :
    store ia d v s = .fault (.memoryOutOfBounds d.word (s.site ia)) := by
  cases d with
  | reg r => exact absurd trivial h
  | mem addr => exact memWrite_of_ge (Nat.le_of_not_lt h)

/-- Settles O13: a Store completes with its frame where its place exists, and faults where it does not. -/
theorem storeWritesItsTargetOnly : Obligations.StoreWritesItsTargetOnly :=
  fun ia _ v _ => ⟨fun ok => store_of_ok ok ia v, fun bad => store_of_not_ok bad ia v⟩

/-! ## What Resolve reads (R44) -/

@[simp] theorem resolve_lit (v : Word) (s : State) : resolve (.lit v) s = v := rfl

@[simp] theorem resolve_reg (r : RegIdx) (s : State) : resolve (.reg r) s = s.reg r := rfl

/-- Settles O12: by what a register read gives after a write to the same and to another register. -/
theorem resolveReadsWhatStoreWrote : Obligations.ResolveReadsWhatStoreWrote := by
  refine ⟨resolve_lit, resolve_reg, fun ia r v s => ⟨s.setReg r v, store_reg r, ?same, fun q hq => ?other⟩⟩
  case same => rw [resolve_reg, State.setReg_reg_same]
  case other => rw [resolve_reg, resolve_reg, State.setReg_reg_other s hq]

end Sys2Proof.Machine
end

section
/-! Proofs. Machine control (40_control.md R100, R101): the status that the loop check after an instruction gives, and the two
instructions without operands. -/

namespace Sys2Proof.Machine

variable {s : State}

/-! ## The status of a machine whose run is over (R31, R71) -/

theorem status_of_halted (h : s.halted = true) : s.status = .halted := by
  simp only [State.status, loopCheck_halted h]

theorem status_of_ended (h : s.halted = false) (hp : s.mem.size ≤ s.pc.toNat) : s.status = .ended := by
  simp only [State.status, loopCheck_ended h hp]

/-! ## halt and noop -/

theorem exec_halt (s : State) : exec .halt s = .next (s.advance 1).setHalted := rfl

theorem exec_noop (s : State) : exec .noop s = .next (s.advance 1) := rfl

/-- Settles O23: `halt` sets the flag that the loop check reads before it looks at the pc (D15). -/
theorem haltStopsTheMachine : Obligations.HaltStopsTheMachine :=
  ⟨rfl, fun s => ⟨(s.advance 1).setHalted, exec_halt s, rfl, status_of_halted (State.setHalted_halted _)⟩⟩

/-- Below 65536 words, an advance by one from the last word is to N itself: the pc does not wrap (R70, D6). -/
theorem advance_one_of_last (hlast : s.mem.size = s.pc.toNat + 1) (hsize : s.mem.size < 65536) :
    (s.advance 1).pc.toNat = s.mem.size := by
  rw [State.advance_pc, hlast]
  exact BitVec.toNat_add_of_lt (by simp; omega)

/-- Settles O24: after `noop` at the last word the pc is N, where the loop check ends the run. -/
theorem noopOnlyMovesThePc : Obligations.NoopOnlyMovesThePc := by
  refine ⟨rfl, fun s => ⟨s.advance 1, exec_noop s, rfl, fun running hlast hsize => ?_⟩⟩
  exact status_of_ended running (advance_one_of_last hlast hsize).ge

end Sys2Proof.Machine
end

section
/-! Proofs. The faults of dispatch common to every instruction with operands (30_encoding.md R72 phases 3 and 4, R204, R205),
proved once for all rows of the opcode table: the decoder's `OperandReject`, read off the words in memory. -/

namespace Sys2Proof.Machine

variable {s : State}

/-! ## The operand words the decoder is given -/

theorem operandWords_length_le (i : Instr) : i.operandWords.length ≤ 3 := by
  cases i <;> simp [Instr.operandWords]

/-- As far as the fetched words reach, they are the words of memory. -/
theorem getElem?_wordsFrom {j n l : Nat} (h : l < (s.wordsFrom j n).length) :
    (s.wordsFrom j n)[l]? = s.instrWord (j + l) := by
  have hl := List.getElem?_eq_getElem h
  rw [instrWord_of_wordsFrom hl, hl]

theorem window_eq_cons {op : Word} (h : s.instrWord 0 = some op) : s.window = op :: s.wordsFrom 1 3 := by
  simp only [State.window, State.wordsFrom, h]

/-- Where the opcode word is a row's, a rejection of the operand words after it is the fault of the step. -/
theorem step_of_operandReject {i : Instr} {r : Reject} (running : s.Running)
    (hop : s.instrWord 0 = some (BitVec.ofNat 16 i.opcode))
    (hr : OperandReject i.operandWords.length (s.wordsFrom 1 3) r) : step s = dispatchFault r s := by
  refine step_of_error (loopCheck_eq_execute.2 running) ?_
  rw [State.fetchDecode, window_eq_cons hop]
  exact (decode_row_eq_error i).2 hr

/-! ## The common faults of a row -/

/-- The fetched operand words stop exactly before the first missing one. -/
theorem missingOperandFaults_of_row (i : Instr) : MissingOperandFaults i.opcode i.operandWords.length := by
  intro s j running hop hj hjk hthere hmissing
  obtain ⟨m, rfl⟩ := Nat.exists_eq_add_of_le hj
  have hk := operandWords_length_le i
  have hlen : (s.wordsFrom 1 3).length = m := by
    apply le_antisymm
    · exact wordsFrom_length_le_of_none hmissing
    · exact le_wordsFrom_length (by omega) fun l hl => hthere (1 + l) (by omega)
  refine step_of_operandReject (r := .missingWord (1 + m)) running hop (.inl ⟨by omega, ?_⟩)
  rw [hlen, Nat.add_comm]

/-- With all operand words fetched, the first illegal one in memory is the decoder's. -/
theorem illegalOperandFaults_of_row (i : Instr) : IllegalOperandFaults i.opcode i.operandWords.length := by
  intro s j w running hop hthere hj hw hillegal hlegal
  have hlen : i.operandWords.length ≤ (s.wordsFrom 1 3).length :=
    le_wordsFrom_length (operandWords_length_le i) fun l hl => hthere (1 + l) (by omega)
  have word : ∀ l, l ≤ j → (s.wordsFrom 1 3)[l]? = s.instrWord (l + 1) := fun l hl => by
    rw [getElem?_wordsFrom (by omega), Nat.add_comm]
  refine step_of_operandReject (r := .invalidOperand j w) running hop
    (.inr ⟨hlen, j, w, hj, ?first, hillegal, ?before, ?index⟩)
  case first => rw [word j le_rfl, hw]
  case before => exact fun l v hl hv => hlegal l v hl (by rw [← word l hl.le, hv])
  case index => rw [Nat.zero_add]

theorem commonFaults_of_row (i : Instr) : CommonFaults i.opcode i.operandWords.length :=
  ⟨missingOperandFaults_of_row i, illegalOperandFaults_of_row i⟩

end Sys2Proof.Machine
end

section
/-! Proofs. `set`, `push` and `pop` (41_data_stack.md R110 to R112): each meaning is a Store or a Push from the state whose pc has
moved on, so its frame is that operation's. -/

namespace Sys2Proof.Machine

variable {s : State}

/-! ## A Store once the pc has moved on -/

/-- It completes with its whole frame where its place exists. -/
theorem store_advance_of_ok {d : Dst} (h : StoreOk d s) (v : Word) (n : Nat) :
    ∃ t, store s.pc d v (s.advance n) = .next t ∧ Stored d v s t ∧ t.pc = s.pc + BitVec.ofNat 16 n ∧ SameRest s t :=
  store_of_ok (s := s.advance n) h s.pc v

/-- It faults at the instruction's own address, not at the pc it has moved on to. -/
theorem store_advance_of_not_ok {d : Dst} (h : ¬ StoreOk d s) (v : Word) (n : Nat) :
    store s.pc d v (s.advance n) = .fault (.memoryOutOfBounds d.word (s.site s.pc)) :=
  store_of_not_ok (s := s.advance n) h s.pc v

/-! ## set, push and pop -/

theorem exec_set (a : Dst) (b : Src) (s : State) : exec (.set a b) s = store s.pc a (resolve b s) (s.advance 3) := rfl

theorem exec_push (a : Src) (s : State) : exec (.push a) s = execPush a s := rfl

theorem exec_pop (a : Dst) (s : State) : exec (.pop a) s = execPop a s := rfl

/-- Settles O25: `set` is the Store of the resolved source. -/
theorem setCopiesItsSource : Obligations.SetCopiesItsSource := by
  refine ⟨commonFaults_of_row (.set (.reg 0) (.lit 0)), fun a b s => ⟨rfl, ?_⟩⟩
  rw [exec_set]
  exact ⟨fun ok => store_advance_of_ok ok _ 3, fun bad => store_advance_of_not_ok bad _ 3⟩

/-- Settles O26: by the two answers of Push, which R27's test tells apart. -/
theorem pushAppendsItsSource : Obligations.PushAppendsItsSource := by
  refine ⟨commonFaults_of_row (.push (.lit 0)), fun a s => ⟨rfl, ?_⟩⟩
  rw [exec_push]
  exact ⟨fun room => execPush_of_room a room, fun full => execPush_of_full a full⟩

/-- Settles O27: an empty stack faults before the Store; otherwise `pop` is the Store of the top from the state without it. -/
theorem popStoresTheTop : Obligations.PopStoresTheTop := by
  refine ⟨commonFaults_of_row (.pop (.reg 0)), fun a s => ⟨rfl, ?_⟩⟩
  rw [exec_pop]
  refine ⟨fun empty => execPop_of_nil a empty, fun l v top => ?_⟩
  rw [execPop_of_concat a top]
  exact ⟨fun ok => store_of_ok (s := (s.advance 2).setStack l) ok s.pc v,
    fun bad => store_of_not_ok (s := (s.advance 2).setStack l) bad s.pc v⟩

end Sys2Proof.Machine
end

section
/-! Proofs. `eq` and `gt` (42_compare.md R120 to R122): each is the Store of a truth value, which the model takes from a test of
words and the rules from the unsigned numbers they stand for. -/

namespace Sys2Proof.Machine

/-! ## Truth values (R122) -/

theorem truthWord_decide (p : Prop) [Decidable p] : truthWord (decide p) = if p then 1 else 0 := by
  by_cases h : p <;> simp [truthWord, h]

/-- Words are equal exactly when all their 16 bits give the same number. -/
theorem beq_eq_decide_toNat (x y : Word) : (x == y) = decide (x.toNat = y.toNat) := by
  rw [beq_eq_decide, decide_eq_decide, BitVec.toNat_inj]

/-! ## eq and gt -/

theorem exec_eq (a : Dst) (b c : Src) (s : State) : exec (.eq a b c) s =
    store s.pc a (if (resolve b s).toNat = (resolve c s).toNat then 1 else 0) (s.advance 4) := by
  rw [← truthWord_decide, ← beq_eq_decide_toNat]
  rfl

theorem exec_gt (a : Dst) (b c : Src) (s : State) : exec (.gt a b c) s =
    store s.pc a (if (resolve b s).toNat > (resolve c s).toNat then 1 else 0) (s.advance 4) := by
  rw [← truthWord_decide]
  rfl

/-- Settles O29: `eq` is the Store of the truth value of equality. -/
theorem eqWritesOneIffEqual : Obligations.EqWritesOneIffEqual := by
  refine ⟨commonFaults_of_row (.eq (.reg 0) (.lit 0) (.lit 0)), fun a b c s => ⟨rfl, ?_⟩⟩
  rw [exec_eq]
  exact ⟨fun ok => store_advance_of_ok ok _ 4, fun bad => store_advance_of_not_ok bad _ 4⟩

/-- Settles O30: `gt` is the Store of the truth value of the strict unsigned comparison. -/
theorem gtWritesOneIffGreater : Obligations.GtWritesOneIffGreater := by
  refine ⟨commonFaults_of_row (.gt (.reg 0) (.lit 0) (.lit 0)), fun a b c s => ⟨rfl, ?_⟩⟩
  rw [exec_gt]
  exact ⟨fun ok => store_advance_of_ok ok _ 4, fun bad => store_advance_of_not_ok bad _ 4⟩

end Sys2Proof.Machine
end

section
/-! Proofs. `jmp`, `jt` and `jf` (43_jump.md R130 to R133): a branch jumps to one of two addresses, and every control transfer,
`call` and `ret` included, leaves its target to the next loop check. -/

namespace Sys2Proof.Machine

variable {s t : State} {i : Instr} {target : Word}

/-! ## jmp, jt and jf: the pc and nothing else -/

theorem exec_jmp (a : Src) (s : State) : exec (.jmp a) s = .next (s.jump (resolve a s)) := rfl

/-- Taken or not, `jt` is a jump: when not taken, to the address after its three words. -/
theorem exec_jt (a b : Src) (s : State) :
    exec (.jt a b) s = .next (s.jump (if resolve a s ≠ 0 then resolve b s else s.pc + 3)) := by
  rw [ite_not, apply_ite s.jump]
  rfl

/-- The same of `jf`, with the two addresses exchanged. -/
theorem exec_jf (a b : Src) (s : State) :
    exec (.jf a b) s = .next (s.jump (if resolve a s = 0 then resolve b s else s.pc + 3)) := by
  rw [apply_ite s.jump]
  rfl

/-- Settles O31: `jmp` jumps to the value of its operand, where a value of N or more is the end (R71). -/
theorem jmpJumps : Obligations.JmpJumps :=
  ⟨commonFaults_of_row (.jmp (.lit 0)), fun a s =>
    ⟨rfl, s.jump (resolve a s), exec_jmp a s, rfl, status_of_ended (s := s.jump (resolve a s))⟩⟩

/-- Settles O32: the operands are checked at dispatch, before `jt` decides where to jump (D3). -/
theorem jtJumpsOnNonZero : Obligations.JtJumpsOnNonZero :=
  ⟨commonFaults_of_row (.jt (.lit 0) (.lit 0)), fun a b s => ⟨rfl, exec_jt a b s⟩⟩

/-- Settles O33: the operands are checked at dispatch, before `jf` decides where to jump (D3). -/
theorem jfJumpsOnZero : Obligations.JfJumpsOnZero :=
  ⟨commonFaults_of_row (.jf (.lit 0) (.lit 0)), fun a b s => ⟨rfl, exec_jf a b s⟩⟩

/-! ## Every control transfer (R133) -/

theorem instrWord_zero (s : State) : s.instrWord 0 = s.mem.read s.pc.toNat := by
  rw [State.instrWord, State.wordAddr, BitVec.add_zero]

/-- No instruction both stores and transfers control. -/
theorem destination_of_transferTarget (h : transferTarget i s = some target) : destination i = none := by
  cases i with
  | jmp | jt | jf | call | ret => rfl
  | _ => cases h

theorem noStore_of_transfer (ht : transferTarget i s = some target) (h : exec i s = .next t) : NoStore i s t := by
  obtain ⟨d, v, u, before, -⟩ | ⟨a, b, rfl, -, -⟩ | hno | ⟨a, rfl, -, -⟩ := exec_eq_next h
  · cases before.dst.symm.trans (destination_of_transferTarget ht)
  · cases ht
  · exact hno
  · cases ht

/-- A transfer moves the pc to its target, unjudged, and leaves alone all that the loop check reads besides: a `ret` with a
target is not the one that halts. -/
theorem exec_transfer (ht : transferTarget i s = some target) (h : exec i s = .next t) :
    t.pc = target ∧ t.mem = s.mem ∧ t.halted = s.halted := by
  have hno := noStore_of_transfer ht h
  refine ⟨?pc, hno.mem, ?halted⟩
  case pc => rw [hno.pc, ht, Option.getD_some]
  case halted =>
    have hhalt : i ≠ .halt := by rintro rfl; cases ht
    have hret : ¬ (i = .ret ∧ s.stack = []) := by
      rintro ⟨rfl, empty⟩
      simp [transferTarget, empty] at ht
    simp [hno.halted, hhalt, hret]

/-- Settles O34: the loop check after a transfer compares the target with N, and below N the fetch reads the word there. -/
theorem transferTargetsAreJudgedByTheLoopCheck : Obligations.TransferTargetsAreJudgedByTheLoopCheck := by
  intro i s t target ht h running
  obtain ⟨rfl, hmem, hhalted⟩ := exec_transfer ht h
  rw [← hmem]
  rw [← hhalted] at running
  exact ⟨rfl, fun beyond => status_of_ended running beyond, fun inside => ⟨⟨running, inside⟩, instrWord_zero t⟩⟩

end Sys2Proof.Machine
end

section
/-! Proofs. `add`, `mult`, `mod`, `and`, `or` and `not` (44_alu.md R140 to R146, R149): each is a Store of one word from the state
whose pc has moved on, so what it does is that Store, and what its destination holds afterwards is that word. -/

namespace Sys2Proof.Machine

variable {s t : State} {d : Dst} {ia v : Word}

/-! ## The Store of each instruction -/

/-- Both answers of a Store once the pc has moved on. -/
theorem store_advance (d : Dst) (v : Word) (n : Nat) (s : State) :
    (StoreOk d s → ∃ t, store s.pc d v (s.advance n) = .next t ∧ Stored d v s t ∧ t.pc = s.pc + BitVec.ofNat 16 n ∧
      SameRest s t) ∧
    (¬ StoreOk d s → store s.pc d v (s.advance n) = .fault (.memoryOutOfBounds d.word (s.site s.pc))) :=
  ⟨fun ok => store_advance_of_ok ok v n, fun bad => store_advance_of_not_ok bad v n⟩

theorem exec_add (a : Dst) (b c : Src) (s : State) :
    exec (.add a b c) s = store s.pc a (addWord (resolve b s) (resolve c s)) (s.advance 4) := rfl

theorem exec_mult (a : Dst) (b c : Src) (s : State) :
    exec (.mult a b c) s = store s.pc a (multWord (resolve b s) (resolve c s)) (s.advance 4) := rfl

theorem exec_mod (a : Dst) (b c : Src) (s : State) : exec (.mod a b c) s = execMod a b c s := rfl

theorem exec_and (a : Dst) (b c : Src) (s : State) :
    exec (.and a b c) s = store s.pc a (resolve b s &&& resolve c s) (s.advance 4) := rfl

theorem exec_or (a : Dst) (b c : Src) (s : State) :
    exec (.or a b c) s = store s.pc a (resolve b s ||| resolve c s) (s.advance 4) := rfl

theorem exec_not (a : Dst) (b : Src) (s : State) :
    exec (.not a b) s = store s.pc a (notWord (resolve b s)) (s.advance 3) := rfl

/-- Settles O35: `add` is the Store of the reduced exact sum. -/
theorem addWritesTheSumModulo32768 : Obligations.AddWritesTheSumModulo32768 := by
  refine ⟨commonFaults_of_row (.add (.reg 0) (.lit 0) (.lit 0)), fun a b c s => ⟨rfl, _, addWord_toNat _ _, ?_⟩⟩
  rw [exec_add]
  exact store_advance a _ 4 s

/-- Settles O36: `mult` is the Store of the reduced exact product. -/
theorem multWritesTheProductModulo32768 : Obligations.MultWritesTheProductModulo32768 := by
  refine ⟨commonFaults_of_row (.mult (.reg 0) (.lit 0) (.lit 0)), fun a b c s => ⟨rfl, _, multWord_toNat _ _, ?_⟩⟩
  rw [exec_mult]
  exact store_advance a _ 4 s

/-- Settles O37: a divisor of 0 faults before the Store; otherwise `mod` is the Store of the remainder. -/
theorem modWritesTheRemainder : Obligations.ModWritesTheRemainder := by
  refine ⟨commonFaults_of_row (.mod (.reg 0) (.lit 0) (.lit 0)), fun a b c s => ⟨rfl, ?_⟩⟩
  rw [exec_mod]
  refine ⟨fun zero => execMod_of_zero a b zero, fun nonzero => ⟨_, modWord_toNat _ _, ?_⟩⟩
  rw [execMod_of_ne_zero a b nonzero]
  exact store_advance a _ 4 s

/-- Settles O38: `and` is the Store of the AND of the raw words. -/
theorem andWritesTheBitwiseAnd : Obligations.AndWritesTheBitwiseAnd := by
  refine ⟨commonFaults_of_row (.and (.reg 0) (.lit 0) (.lit 0)), fun a b c s => ⟨rfl, ?_⟩⟩
  rw [exec_and]
  exact store_advance a _ 4 s

/-- Settles O39: `or` is the Store of the OR of the raw words. -/
theorem orWritesTheBitwiseOr : Obligations.OrWritesTheBitwiseOr := by
  refine ⟨commonFaults_of_row (.or (.reg 0) (.lit 0) (.lit 0)), fun a b c s => ⟨rfl, ?_⟩⟩
  rw [exec_or]
  exact store_advance a _ 4 s

/-- Settles O40: `not` is the Store of the complement within 15 bits. -/
theorem notWritesTheFifteenBitComplement : Obligations.NotWritesTheFifteenBitComplement := by
  refine ⟨commonFaults_of_row (.not (.reg 0) (.lit 0)), fun a b s => ⟨rfl, _, notWord_toNat _, ?_⟩⟩
  rw [exec_not]
  exact store_advance a _ 3 s

/-! ## What the destination holds afterwards -/

theorem dstWord_of_stored (h : Stored d v s t) : dstWord d t = some v := by
  obtain ⟨-, h⟩ := h
  cases d with
  | reg r => exact congrArg some h.1
  | mem addr => exact h.1

/-- A Store that completes leaves its word in the destination. -/
theorem dstWord_of_store (h : store ia d v s = .next t) : dstWord d t = some v := by
  obtain ⟨r, rfl, rfl⟩ | ⟨addr, rfl, inside, rfl⟩ := store_eq_next.1 h
  · exact dstWord_of_stored (stored_setReg r v s)
  · exact dstWord_of_stored (stored_setMem inside v)

/-- A `mod` that completes has Stored the remainder. -/
theorem dstWord_of_exec_mod {b c : Src} (h : exec (.mod d b c) s = .next t) :
    dstWord d t = some (modWord (resolve b s) (resolve c s)) := by
  rw [exec_mod] at h
  by_cases zero : resolve c s = 0
  · rw [execMod_of_zero d b zero] at h
    cases h
  · rw [execMod_of_ne_zero d b zero] at h
    exact dstWord_of_store h

/-! ## Result domains (R146) -/

theorem addWord_lt (x y : Word) : (addWord x y).toNat < 32768 := by
  rw [addWord_toNat]
  exact Nat.mod_lt _ (by decide)

theorem multWord_lt (x y : Word) : (multWord x y).toNat < 32768 := by
  rw [multWord_toNat]
  exact Nat.mod_lt _ (by decide)

theorem notWord_lt (x : Word) : (notWord x).toNat < 32768 := by
  rw [notWord_toNat]
  omega

theorem modWord_le (x y : Word) : (modWord x y).toNat ≤ x.toNat := by
  rw [modWord_toNat]
  exact Nat.mod_le _ _

theorem andWord_le (x y : Word) : (x &&& y).toNat ≤ x.toNat := by
  rw [BitVec.toNat_and]
  exact Nat.and_le_left

/-- An OR has bit 15 only from one of its inputs. -/
theorem ge_or_ge_of_orWord_ge {x y : Word} (h : 32768 ≤ (x ||| y).toNat) : 32768 ≤ x.toNat ∨ 32768 ≤ y.toNat := by
  by_contra! below
  obtain ⟨hx, hy⟩ := below
  have : x.toNat ||| y.toNat < 2 ^ 15 := Nat.or_lt_two_pow hx hy
  rw [BitVec.toNat_or] at h
  omega

/-- No literal is 32768 or more (R43): a source of such a value is a register that holds it. -/
theorem reg_of_resolve_ge {o : Src} (hwf : o.wf = true) (h : 32768 ≤ (resolve o s).toNat) :
    ∃ r, o = .reg r ∧ 32768 ≤ (s.reg r).toNat := by
  cases o with
  | lit v => exact absurd (of_decide_eq_true hwf) (Nat.not_lt.2 h)
  | reg r => exact ⟨r, rfl, h⟩

theorem reg_of_resolve_ge_or {b c : Src} (hb : b.wf = true) (hc : c.wf = true)
    (h : 32768 ≤ (resolve b s).toNat ∨ 32768 ≤ (resolve c s).toNat) :
    ∃ r, (b = .reg r ∨ c = .reg r) ∧ 32768 ≤ (s.reg r).toNat := by
  obtain h | h := h
  · obtain ⟨r, rfl, hr⟩ := reg_of_resolve_ge hb h
    exact ⟨r, .inl rfl, hr⟩
  · obtain ⟨r, rfl, hr⟩ := reg_of_resolve_ge hc h
    exact ⟨r, .inr rfl, hr⟩

/-- Settles O41: by the bound on each word that is Stored; a word of 32768 or more comes from a source that is. -/
theorem resultDomains : Obligations.ResultDomains := by
  refine fun a b c s t => ⟨?fifteenBits, ?sixteenBits, ?truth⟩
  case fifteenBits =>
    rintro (h | h | h)
    · exact ⟨_, dstWord_of_store (exec_add a b c s ▸ h), addWord_lt _ _⟩
    · exact ⟨_, dstWord_of_store (exec_mult a b c s ▸ h), multWord_lt _ _⟩
    · exact ⟨_, dstWord_of_store (exec_not a b s ▸ h), notWord_lt _⟩
  case sixteenBits =>
    rintro (h | h | h)
    · exact ⟨_, dstWord_of_exec_mod h, fun hb hc hv => reg_of_resolve_ge_or hb hc (.inl (hv.trans (modWord_le _ _)))⟩
    · exact ⟨_, dstWord_of_store (exec_and a b c s ▸ h),
        fun hb hc hv => reg_of_resolve_ge_or hb hc (.inl (hv.trans (andWord_le _ _)))⟩
    · exact ⟨_, dstWord_of_store (exec_or a b c s ▸ h),
        fun hb hc hv => reg_of_resolve_ge_or hb hc (ge_or_ge_of_orWord_ge hv)⟩
  case truth =>
    rintro (h | h)
    · exact ⟨_, dstWord_of_store (exec_eq a b c s ▸ h), (ite_eq_or_eq _ _ _).symm⟩
    · exact ⟨_, dstWord_of_store (exec_gt a b c s ▸ h), (ite_eq_or_eq _ _ _).symm⟩

/-! ## Bit by bit, and `not` twice (R149) -/

/-- The mask of `notWord` is bits 14 to 0. -/
theorem notWord_getLsbD (x : Word) {i : Nat} (h : i < 16) :
    (notWord x).getLsbD i = (!x.getLsbD i && decide (i < 15)) := by
  have mask : (0x7FFF : Word).getLsbD i = decide (i < 15) := by
    rw [show (0x7FFF : Word) = BitVec.ofNat 16 (2 ^ 15 - 1) from rfl, BitVec.getLsbD_ofNat, Nat.testBit_two_pow_sub_one]
    simp [h]
  rw [notWord, BitVec.getLsbD_and, BitVec.getLsbD_not, mask, decide_eq_true h, Bool.true_and]

/-- A second complement within 15 bits undoes the first, but for bit 15. -/
theorem notWord_notWord_toNat (x : Word) : (notWord (notWord x)).toNat = x.toNat % 32768 := by
  rw [notWord_toNat, notWord_toNat]
  omega

/-- What a `not` leaves in a register. -/
theorem reg_of_exec_not {r : RegIdx} {b : Src} (h : exec (.not (.reg r) b) s = .next t) :
    t.reg r = notWord (resolve b s) := by
  rw [exec_not] at h
  exact Option.some.inj (dstWord_of_store h)

/-- Settles O44: by the bits of each word that is Stored; the second `not` reads the register the first one wrote. -/
theorem bitwiseLaws : Obligations.BitwiseLaws := by
  refine ⟨fun a b c s t h => ?and, fun a b c s t h => ?or, fun a b s t h => ?not, fun r q b s t u h k => ?notNot⟩
  case and => exact ⟨_, dstWord_of_store (exec_and a b c s ▸ h), fun _ _ => BitVec.getLsbD_and⟩
  case or => exact ⟨_, dstWord_of_store (exec_or a b c s ▸ h), fun _ _ => BitVec.getLsbD_or⟩
  case not =>
    refine ⟨_, dstWord_of_store (exec_not a b s ▸ h), ?_, fun i hi => ?_⟩
    · rw [notWord_getLsbD _ (by decide)]
      exact Bool.and_false _
    · rw [notWord_getLsbD _ (by omega), decide_eq_true hi, Bool.and_true]
  case notNot => rw [reg_of_exec_not k, resolve_reg, reg_of_exec_not h, notWord_notWord_toNat]

end Sys2Proof.Machine
end

section
/-! Proofs. `rmem` and `wmem` (45_memory_ops.md R160, R161): each is a Store from the state whose pc has moved on, `rmem` of the
word it reads, `wmem` to the address its first operand resolves to, so the frame of each is that Store's. -/

namespace Sys2Proof.Machine

theorem exec_rmem (a : Dst) (b : Src) (s : State) : exec (.rmem a b) s = execRmem a b s := rfl

/-- `wmem` is the Store whose destination is the memory word at the resolved address, whatever kind of operand `a` is (C7). -/
theorem exec_wmem (a b : Src) (s : State) :
    exec (.wmem a b) s = store s.pc (.mem (resolve a s)) (resolve b s) (s.advance 3) := rfl

/-- Settles O45: an address of N or more faults before the Store; otherwise `rmem` is the Store of the word read there. -/
theorem rmemReadsMemory : Obligations.RmemReadsMemory := by
  refine ⟨commonFaults_of_row (.rmem (.reg 0) (.lit 0)), fun a b s => ⟨rfl, ?_⟩⟩
  rw [exec_rmem]
  refine ⟨fun outside => execRmem_of_ge a outside, fun inside => ⟨_, Memory.read_eq_some.2 ⟨inside, rfl⟩, ?_⟩⟩
  rw [execRmem_of_lt a inside]
  exact store_advance a _ 3 s

/-- Settles O46: the place `wmem` stores to exists exactly when the resolved address is below N. -/
theorem wmemWritesMemory : Obligations.WmemWritesMemory := by
  refine ⟨commonFaults_of_row (.wmem (.lit 0) (.lit 0)), fun a b s => ⟨rfl, ?_⟩⟩
  rw [exec_wmem]
  obtain ⟨completes, faults⟩ := store_advance (.mem (resolve a s)) (resolve b s) 3 s
  exact ⟨completes, fun outside => faults (Nat.not_lt.2 outside)⟩

end Sys2Proof.Machine
end

section
/-! Proofs. `call` and `ret` (46_call_return.md R170, R171): `call` is a Push followed by a jump, `ret` a jump to what Pop gives,
or a halt where Pop gives nothing. -/

namespace Sys2Proof.Machine

theorem exec_call (a : Src) (s : State) : exec (.call a) s = execCall a s := rfl

theorem exec_ret (s : State) : exec .ret s = execRet s := rfl

/-- Settles O47: by the two answers of Push, which R27's test tells apart; only where it completes is there a jump. -/
theorem callPushesTheReturnAddress : Obligations.CallPushesTheReturnAddress := by
  refine ⟨commonFaults_of_row (.call (.lit 0)), fun a s => ⟨rfl, ?_⟩⟩
  rw [exec_call]
  exact ⟨fun room => execCall_of_room a room, fun full => execCall_of_full a full⟩

/-- Settles O48: by the two answers of Pop; on an empty stack `ret` halts as `halt` does, without a fault (R213). -/
theorem retPopsOrHalts : Obligations.RetPopsOrHalts := by
  refine ⟨rfl, fun s => ?_⟩
  rw [exec_ret]
  refine ⟨fun empty => ?_, fun _ _ top => execRet_of_concat top⟩
  exact ⟨(s.advance 1).setHalted, execRet_of_nil empty, rfl, status_of_halted (State.setHalted_halted _)⟩

end Sys2Proof.Machine
end

section
/-! Proofs. `out` (47_io.md R180): an Emit from the state whose pc has moved on, with no fault after dispatch. -/

namespace Sys2Proof.Machine

/-- Moving the pc on emits nothing, so the value follows what was emitted before the instruction. -/
theorem exec_out (a : Src) (s : State) :
    exec (.out a) s = .next ((s.advance 2).setOutput (s.output ++ [resolve a s])) := by
  rw [← State.advance_output (s := s) 2, ← State.emit_eq]
  rfl

/-- Settles O50: `out` is the Emit of its resolved source, which always completes (R34). -/
theorem outEmitsItsSource : Obligations.OutEmitsItsSource :=
  ⟨commonFaults_of_row (.out (.lit 0)), fun a s => ⟨rfl, exec_out a s⟩⟩

end Sys2Proof.Machine
end

section
/-! Proofs. Faults (60_exceptions.md R202 to R207): what each kind of fault tells of the machine whose step raised it, said once
for all kinds, so that "and nothing else raises it" is read off by the kind. -/

namespace Sys2Proof.Machine

variable {s : State} {f : Fault}

/-! ## From a fault back to its cause -/

/-- Why a step from `s` faults, by the kind of the fault: what stands at the pc and, where an instruction raised it, what that
instruction found in `s`. -/
def FaultCause (s : State) : Fault → Prop
  | .unknownOpcode op site => site = s.site s.pc ∧ s.fetchDecode = .error (.unknownOpcode op)
  | .stackUnderflow site => site = s.site s.pc ∧ s.stack = [] ∧ ∃ a, s.fetchDecode = .ok (.pop a)
  | .memoryOutOfBounds addr site => site.ia = s.pc ∧
      ((∃ j, s.fetchDecode = .error (.missingWord j) ∧ addr = s.wordAddr j) ∨
        ∃ i, s.fetchDecode = .ok i ∧ s.mem.size ≤ addr.toNat ∧
          (destination i = some (.mem addr) ∨ (∃ a b, i = .rmem a b ∧ addr = resolve b s) ∨
            ∃ a b, i = .wmem a b ∧ addr = resolve a s))
  | .invalidOperand j w site => site = s.site s.pc ∧ s.fetchDecode = .error (.invalidOperand j w)
  | .divideByZero site => site = s.site s.pc ∧ ∃ a b c, s.fetchDecode = .ok (.mod a b c) ∧ resolve c s = 0
  | .stackOverflow site => site = s.site s.pc ∧ s.params.stackCapacity = some s.stack.length ∧
      ∃ a, s.fetchDecode = .ok (.push a) ∨ s.fetchDecode = .ok (.call a)

/-- Dispatch raises UnknownOpcode, MemoryOutOfBounds for a missing word, and InvalidOperand. -/
theorem faultCause_of_dispatch {r : Reject} (hd : s.fetchDecode = .error r) (h : dispatchFault r s = .fault f) :
    FaultCause s f := by
  cases r with
  | missingWord j => cases h; exact ⟨rfl, .inl ⟨j, hd, rfl⟩⟩
  | unknownOpcode op => cases h; exact ⟨rfl, hd⟩
  | invalidOperand j w => cases h; exact ⟨rfl, hd⟩

/-- An instruction raises the other three, and MemoryOutOfBounds for an address it accesses. -/
theorem faultCause_of_exec {i : Instr} (hd : s.fetchDecode = .ok i) (h : exec i s.beginStep = .fault f) :
    FaultCause s f := by
  have cause := exec_eq_fault h
  simp only [resolve_beginStep] at cause
  obtain ⟨addr, dst, outside, rfl | ⟨b, bs, -, -, rfl⟩⟩ | ⟨a, b, rfl, outside, rfl⟩ | ⟨a, b, rfl, outside, rfl⟩ |
    ⟨a, rfl, empty, rfl⟩ | ⟨a, b, c, rfl, zero, rfl⟩ | ⟨a, rfl | rfl, full, rfl⟩ := cause
  · exact ⟨rfl, .inr ⟨i, hd, outside, .inl dst⟩⟩
  · exact ⟨rfl, .inr ⟨i, hd, outside, .inl dst⟩⟩
  · exact ⟨rfl, .inr ⟨_, hd, outside, .inr (.inl ⟨a, b, rfl, rfl⟩)⟩⟩
  · exact ⟨rfl, .inr ⟨_, hd, outside, .inr (.inr ⟨a, b, rfl, rfl⟩)⟩⟩
  · exact ⟨rfl, empty, a, hd⟩
  · exact ⟨rfl, a, b, c, hd, zero⟩
  · exact ⟨rfl, full, a, .inl hd⟩
  · exact ⟨rfl, full, a, .inr hd⟩

/-- A fault comes from a step that the loop check let execute, and from a cause of its kind. -/
theorem faultCause_of_step (h : step s = .fault f) : s.Running ∧ FaultCause s f := by
  obtain ⟨stays, -⟩ | ⟨i, check, hd, hstep⟩ | ⟨r, check, hd, hstep⟩ := step_cases s
  · cases stays.symm.trans h
  · exact ⟨loopCheck_eq_execute.1 check, faultCause_of_exec hd (hstep.symm.trans h)⟩
  · exact ⟨loopCheck_eq_execute.1 check, faultCause_of_dispatch hd (hstep.symm.trans h)⟩

/-! ## UnknownOpcode (R202) -/

/-- The operand words of a row are missing or illegal, never an opcode. -/
theorem operandReject_ne_unknownOpcode {k : Nat} {ws : List Word} {op : Word} :
    ¬ OperandReject k ws (.unknownOpcode op) := by
  rintro (⟨-, h⟩ | ⟨-, j, w, -, -, -, -, h⟩)
  · cases h
  · cases h

theorem fetchDecode_eq_unknownOpcode {op : Word} :
    s.fetchDecode = .error (.unknownOpcode op) ↔ s.instrWord 0 = some op ∧ 22 ≤ op.toNat := by
  rw [State.fetchDecode, decode_eq_error]
  constructor
  · rintro (⟨-, h⟩ | ⟨op', rest, hw, large, h⟩ | ⟨i, rest, -, h⟩)
    · cases h
    · cases h
      exact ⟨instrWord_of_wordsFrom (j := 0) (l := 0) (congrArg (·[0]?) hw), large⟩
    · exact absurd h operandReject_ne_unknownOpcode
  · rintro ⟨hop, large⟩
    exact .inr (.inl ⟨op, _, window_eq_cons hop, large, rfl⟩)

/-- Settles O53: dispatch rejects the opcode word exactly when it is 22 or more, and only dispatch raises the fault. -/
theorem unknownOpcodesFault : Obligations.UnknownOpcodesFault := by
  refine ⟨fun s op running hop large => ?faults, fun s op site h => ?only⟩
  case faults =>
    have hstep : step s = .fault (.unknownOpcode op (s.site s.pc)) :=
      step_of_error (loopCheck_eq_execute.2 running) (fetchDecode_eq_unknownOpcode.2 ⟨hop, large⟩)
    exact ⟨hstep, rfl, congrArg (survives s) hstep⟩
  case only =>
    obtain ⟨running, hsite, hd⟩ := faultCause_of_step h
    obtain ⟨hop, large⟩ := fetchDecode_eq_unknownOpcode.1 hd
    exact ⟨running, hop, large, hsite⟩

/-! ## StackUnderflow, InvalidOperand, DivideByZero and StackOverflow (R203, R205 to R207) -/

/-- Settles O54: `pop` and `ret` both Pop, and on an empty stack only `pop` faults (R213). -/
theorem onlyPopUnderflows : Obligations.OnlyPopUnderflows := by
  refine ⟨fun a s empty => execPop_of_nil a empty, fun s site h => ?_, fun s empty => execRet_of_nil empty⟩
  obtain ⟨-, rfl, cause⟩ := faultCause_of_step h
  exact ⟨rfl, cause⟩

/-- Settles O56: it is the second of the common faults of a row. -/
theorem illegalOperandsFault : Obligations.IllegalOperandsFault := illegalOperandFaults_of_row

/-- Settles O57: the divisor is tested before the Store, so the destination does not matter. -/
theorem onlyModDividesByZero : Obligations.OnlyModDividesByZero := by
  refine ⟨fun a b c s zero => execMod_of_zero a b zero, fun s site h => ?_⟩
  obtain ⟨-, rfl, cause⟩ := faultCause_of_step h
  exact ⟨rfl, cause⟩

/-- Settles O58: `push` and `call` are the two instructions that Push, whose one fault is a full stack. -/
theorem onlyAFullFiniteStackOverflows : Obligations.OnlyAFullFiniteStackOverflows := by
  refine ⟨fun a s full => ⟨execPush_of_full a full, execCall_of_full a full⟩, fun s site h => ?_⟩
  obtain ⟨-, rfl, cause⟩ := faultCause_of_step h
  exact ⟨rfl, cause⟩

end Sys2Proof.Machine
end

section
/-! Proofs. Decode and encode (30_encoding.md R60 to R66), and the step of the instruction whose words stand at the pc (R72). -/

namespace Sys2Proof.Machine

variable {s : State} {i : Instr} {ws : List Word}

/-! ## Decode after encode -/

/-- Row by row: the opcode word selects the row's operand decoder, which reads each operand back from its word. -/
theorem decode_encode_append (hwf : i.wf = true) (rest : List Word) : decode (encode i ++ rest) = .ok i := by
  cases i with
  | halt | ret | noop => rfl
  | push a | jmp a | call a | out a => exact decodeS_eq_ok.2 ⟨a, rest, hwf, rfl, rfl⟩
  | pop a | inp a => exact decodeD_eq_ok.2 ⟨a, rest, hwf, rfl, rfl⟩
  | jt a b | jf a b | wmem a b =>
    obtain ⟨ha, hb⟩ := Bool.and_eq_true_iff.1 hwf
    exact decodeSS_eq_ok.2 ⟨a, b, rest, ha, hb, rfl, rfl⟩
  | set a b | not a b | rmem a b =>
    obtain ⟨ha, hb⟩ := Bool.and_eq_true_iff.1 hwf
    exact decodeDS_eq_ok.2 ⟨a, b, rest, ha, hb, rfl, rfl⟩
  | eq a b c | gt a b c | add a b c | mult a b c | mod a b c | and a b c | or a b c =>
    obtain ⟨hab, hc⟩ := Bool.and_eq_true_iff.1 hwf
    obtain ⟨ha, hb⟩ := Bool.and_eq_true_iff.1 hab
    exact decodeDSS_eq_ok.2 ⟨a, b, c, rest, ha, hb, hc, rfl, rfl⟩

theorem decode_of_eq_encode (hwords : ws = encode i) (hwf : i.wf = true) : decode ws = .ok i := by
  rw [hwords, ← List.append_nil (encode i), decode_encode_append hwf]

/-- Settles O15: every operand decoder reads back the words that the encoder writes, whatever follows. -/
theorem decodeOfEncodeIsTheInstruction : Obligations.DecodeOfEncodeIsTheInstruction :=
  fun _ rest hwf => decode_encode_append hwf rest

/-! ## Encode after decode -/

/-- What a row's words decode to is well formed, and the words begin with its encoding. -/
theorem encode_of_decode_row (row : Instr) (h : decode (BitVec.ofNat 16 row.opcode :: ws) = .ok i) :
    i.wf = true ∧ ∃ rest, BitVec.ofNat 16 row.opcode :: ws = encode i ++ rest := by
  cases row with
  | halt | ret | noop => cases h; exact ⟨rfl, ws, rfl⟩
  | push | jmp | call | out =>
    obtain ⟨a, rest, ha, rfl, rfl⟩ := decodeS_eq_ok.1 h
    exact ⟨ha, rest, rfl⟩
  | pop | inp =>
    obtain ⟨a, rest, ha, rfl, rfl⟩ := decodeD_eq_ok.1 h
    exact ⟨ha, rest, rfl⟩
  | jt | jf | wmem =>
    obtain ⟨a, b, rest, ha, hb, rfl, rfl⟩ := decodeSS_eq_ok.1 h
    exact ⟨Bool.and_eq_true_iff.2 ⟨ha, hb⟩, rest, rfl⟩
  | set | not | rmem =>
    obtain ⟨a, b, rest, ha, hb, rfl, rfl⟩ := decodeDS_eq_ok.1 h
    exact ⟨Bool.and_eq_true_iff.2 ⟨ha, hb⟩, rest, rfl⟩
  | eq | gt | add | mult | mod | and | or =>
    obtain ⟨a, b, c, rest, ha, hb, hc, rfl, rfl⟩ := decodeDSS_eq_ok.1 h
    exact ⟨Bool.and_eq_true_iff.2 ⟨Bool.and_eq_true_iff.2 ⟨ha, hb⟩, hc⟩, rest, rfl⟩

theorem encode_of_decode (h : decode ws = .ok i) : i.wf = true ∧ ∃ rest, ws = encode i ++ rest := by
  cases ws with
  | nil => cases h
  | cons op ws =>
    obtain ⟨row, rfl⟩ | ⟨-, unknown⟩ := opcode_row_or_unknown op
    · exact encode_of_decode_row row h
    · cases (unknown ws).symm.trans h

/-- Settles O16: the opcode word is a row's, and each operand word is the word of the operand it is read as. -/
theorem decodedWordsAreAnEncoding : Obligations.DecodedWordsAreAnEncoding :=
  fun _ _ h => encode_of_decode h

/-- Settles O17: the eleven instructions are well formed and the words are their encodings; 32768 is no opcode. -/
theorem exampleWordsDecode : Obligations.ExampleWordsDecode := by
  refine ⟨?_, ?_, ?_, ?_, ?_, ?_, ?_, ?_, ?_, ?_, ?_, ?unknown⟩
  case unknown => rfl
  all_goals exact decode_of_eq_encode rfl rfl

/-! ## The step of the instruction at the pc -/

/-- Settles O18: phase 5 runs what phases 1 to 4 decoded, which is an encoding. -/
theorem stepRunsTheDecodedInstruction : Obligations.StepRunsTheDecodedInstruction :=
  fun _ _ running hd => ⟨(encode_of_decode hd).1, step_of_ok (loopCheck_eq_execute.2 running) hd⟩

theorem encode_length_le (i : Instr) : (encode i).length ≤ 4 :=
  Nat.succ_le_succ (operandWords_length_le i)

/-- The window reaches over the whole encoding, and what follows is not looked at. -/
theorem fetchDecode_of_words (hwf : i.wf = true) (hwords : ∀ j w, (encode i)[j]? = some w → s.instrWord j = some w) :
    s.fetchDecode = .ok i := by
  obtain ⟨rest, hwindow⟩ := wordsFrom_eq_append (s := s) (j := 0) (encode_length_le i)
    fun l w hw => (Nat.zero_add l).symm ▸ hwords l w hw
  rw [State.fetchDecode, State.window, hwindow, decode_encode_append hwf]

/-- Settles O19: the words at the pc are fetched and decoded, wherever memory or the pc wraps. -/
theorem instructionInMemoryRuns : Obligations.InstructionInMemoryRuns :=
  fun _ _ running hwf hwords => step_of_ok (loopCheck_eq_execute.2 running) (fetchDecode_of_words hwf hwords)

end Sys2Proof.Machine
end

section
/-! Proofs. Memory (20_memory.md R41, R42) as words and bytes, and its canonical form as data. -/

namespace Sys2Proof.Machine

variable {m n : Memory}

/-! ## Read after write -/

theorem Memory.read_setWord_same {a : Nat} (h : a < m.size) (v : Word) : (m.setWord a v).read a = some v :=
  Memory.read_eq_some.2 ⟨h, m.getWord_setWord_same a v⟩

theorem Memory.read_setWord_other {a b : Nat} (h : b ≠ a) (v : Word) : (m.setWord a v).read b = m.read b := by
  simp only [Memory.read, Memory.setWord_size, m.getWord_setWord_other h]

/-- Settles O10: a write that completes sets the two bytes of one word. -/
theorem memoryReadsTheLastWrite : Obligations.MemoryReadsTheLastWrite := by
  refine ⟨fun _ _ => Memory.read_eq_none, fun _ _ _ => Memory.write_eq_none, fun m n a v h => ?_⟩
  obtain ⟨inside, rfl⟩ := Memory.write_eq_some.1 h
  exact ⟨rfl, Memory.read_setWord_same inside v, fun _ hb => Memory.read_setWord_other hb v,
    fun _ hlow hhigh => m.readByte_setWord_other hlow hhigh v⟩

/-! ## Memories that read alike -/

/-- A word has one low and one high byte. -/
theorem wordOfBytes_inj {lo hi lo' hi' : Byte} (h : wordOfBytes lo hi = wordOfBytes lo' hi') : lo = lo' ∧ hi = hi' := by
  have hnat := congrArg BitVec.toNat h
  rw [wordOfBytes_toNat, wordOfBytes_toNat] at hnat
  have := lo.isLt
  have := lo'.isLt
  exact ⟨BitVec.eq_of_toNat_eq (by omega), BitVec.eq_of_toNat_eq (by omega)⟩

/-- A canonical memory lists exactly the bytes that do not read as 0. -/
theorem Memory.mem_cells (h : m.wf) {k : Nat} {b : Byte} : (k, b) ∈ m.cells ↔ m.readByte k = b ∧ b ≠ 0 := by
  obtain ⟨-, hrising, hlisted⟩ := h
  constructor
  · exact fun hc => ⟨readCell_of_mem hrising hc, (hlisted _ hc).2⟩
  · rintro ⟨rfl, hne⟩
    exact mem_of_readCell hne

/-- Beyond the bytes of its N words a canonical memory reads as 0. -/
theorem Memory.readByte_of_ge (h : m.wf) {k : Nat} (hk : 2 * m.size ≤ k) : m.readByte k = 0 := by
  by_contra hne
  have := (h.2.2 _ (mem_of_readCell hne)).1
  omega

/-- Words that read the same have the same bytes, and every byte belongs to a word or lies beyond N. -/
theorem Memory.readByte_congr (hm : m.wf) (hn : n.wf) (hsize : m.size = n.size) (hread : ∀ a, m.read a = n.read a)
    (k : Nat) : m.readByte k = n.readByte k := by
  by_cases hk : k / 2 < m.size
  · have hword : m.getWord (k / 2) = n.getWord (k / 2) := by
      simpa only [Memory.read, if_pos hk, if_pos (hsize ▸ hk), Option.some.injEq] using hread (k / 2)
    obtain ⟨hlow, hhigh⟩ := wordOfBytes_inj hword
    obtain hpar | hpar : k = 2 * (k / 2) ∨ k = 2 * (k / 2) + 1 := by omega
    · rw [hpar]; exact hlow
    · rw [hpar]; exact hhigh
  · rw [Memory.readByte_of_ge hm (by omega), Memory.readByte_of_ge hn (by omega)]

theorem Memory.eq_of_readByte (hm : m.wf) (hn : n.wf) (hsize : m.size = n.size)
    (hbyte : ∀ k, m.readByte k = n.readByte k) : m = n := by
  have hcells : m.cells = n.cells := by
    refine hm.2.1.eq_of_mem_iff hn.2.1 fun (k, b) => ?_
    rw [Memory.mem_cells hm, Memory.mem_cells hn, hbyte]
  cases m; cases n
  cases hsize; cases hcells
  rfl

/-- Settles O11: canonical cells are determined by the bytes, and the bytes by the words. -/
theorem canonicalMemoriesThatReadAlikeAreEqual : Obligations.CanonicalMemoriesThatReadAlikeAreEqual :=
  fun _ _ hm hn hsize hread => Memory.eq_of_readByte hm hn hsize (Memory.readByte_congr hm hn hsize hread)

end Sys2Proof.Machine
end

section
/-! Proofs. The invariant (10_state.md R6, R27, R37): construction establishes it, input and every step keep it. -/

namespace Sys2Proof.Machine

variable {s t u : State} {i : Instr} {d : Dst} {ia v : Word}

/-! ## Construction (R37) and reset (R240) -/

theorem reset_reg (r : RegIdx) : State.reset.reg r = 0 := by
  simp [State.reg, State.reset]

theorem status_of_running (running : s.Running) : s.status = if s.stepped && s.waits then .waiting else .running := by
  simp only [State.status, loopCheck_eq_execute.2 running]

/-- Before the first step, a machine that the loop check lets execute is RUNNING, whatever stands at its pc. -/
theorem status_of_not_stepped (hstepped : s.stepped = false) (running : s.Running) : s.status = .running := by
  rw [status_of_running running, hstepped]
  rfl

/-- Settles O1: memory is the image, every other field has its reset value, and no step has been taken. -/
theorem constructionSetsTheResetValues : Obligations.ConstructionSetsTheResetValues := by
  intro image capacity fits
  refine ⟨_, construct_of_le fits capacity, rfl, Memory.read_ofImage image, reset_reg, rfl, rfl, rfl, rfl, rfl, rfl,
    fun empty => ?ended, fun nonempty => ?running⟩
  case ended => subst empty; rfl
  case running => exact status_of_not_stepped rfl ⟨rfl, List.length_pos_of_ne_nil nonempty⟩

/-- An empty stack is within every capacity. -/
theorem inv_of_construct {image : List Word} {capacity : Option Nat} (h : construct image capacity = .ok s) : s.Inv := by
  obtain fits | long := le_or_gt image.length 65536
  · rw [construct_of_le fits] at h
    cases h
    exact ⟨Memory.wf_ofImage fits, fun c _ => c.zero_le⟩
  · rw [construct_of_gt long] at h
    cases h

/-- Settles O8: an image is laid out in canonical form, and the invariant does not speak of the input. -/
theorem constructedMachinesMeetTheInvariant : Obligations.ConstructedMachinesMeetTheInvariant :=
  ⟨fun _ _ _ h => inv_of_construct h, fun _ _ inv => inv⟩

/-- Settles O2: the image of no words leaves every field at its reset value. -/
theorem resetIsTheEmptyConstruction : Obligations.ResetIsTheEmptyConstruction :=
  ⟨rfl, inv_of_construct (image := []) rfl, rfl, reset_reg, rfl, rfl, rfl, rfl, rfl⟩

/-! ## Every step keeps it -/

theorem inv_setMem (hs : s.Inv) {m : Memory} (hm : m.wf) : (s.setMem m).Inv := ⟨hm, hs.2⟩

theorem inv_of_store (hs : s.Inv) (h : store ia d v s = .next t) : t.Inv := by
  obtain ⟨r, -, rfl⟩ | ⟨a, -, inside, rfl⟩ := store_eq_next.1 h
  · exact hs
  · exact inv_setMem hs (Memory.wf_setWord hs.1 inside v)

/-- The same memory and a stack that is no longer, with the same capacity. -/
theorem inv_of_stack_le (hs : s.Inv) (hmem : t.mem = s.mem) (hparams : t.params = s.params)
    (hstack : t.stack.length ≤ s.stack.length) : t.Inv := by
  obtain ⟨hwf, hcap⟩ := hs
  exact ⟨hmem ▸ hwf, fun c hc => hstack.trans (hcap c (hparams ▸ hc))⟩

/-- Only `pop` changes the stack before it stores, and it takes a value off. -/
theorem BeforeStore.stack_le (before : BeforeStore i d v s u) : u.stack.length ≤ s.stack.length := by
  obtain ⟨-, hstack, -⟩ | ⟨hstack, -⟩ | ⟨hstack, -⟩ := before.ports
  · simp [hstack]
  · exact hstack.symm ▸ le_rfl
  · exact hstack.symm ▸ le_rfl

/-- `push` and `call` add one value, and they have tested that the stack was not full (R27). -/
theorem NoStore.stack_le (hno : NoStore i s t) {c : Nat} (hc : s.params.stackCapacity = some c)
    (hlen : s.stack.length ≤ c) : t.stack.length ≤ c := by
  have room : i ≠ .ret → touchesStack i = true → s.stack.length + 1 ≤ c := fun hret htouch => by
    have hfull := (hno.room htouch).resolve_left hret
    exact lt_of_le_of_ne hlen fun e => hfull (by rw [hc, e])
  rw [hno.stack]
  cases i with
  | push a => simpa [stackAfter] using room (by simp) rfl
  | call a => simpa [stackAfter] using room (by simp) rfl
  | ret => simp only [stackAfter, List.length_dropLast]; omega
  | _ => exact hlen

theorem inv_of_exec (hs : s.Inv) (h : exec i s = .next t) : t.Inv := by
  obtain ⟨d, v, u, before, hstore⟩ | ⟨a, b, -, inside, rfl⟩ | hno | ⟨a, -, -, rfl⟩ := exec_eq_next h
  · exact inv_of_store (inv_of_stack_le hs before.mem before.params before.stack_le) hstore
  · exact inv_setMem hs (Memory.wf_setWord hs.1 inside (resolve b s))
  · obtain ⟨hwf, hcap⟩ := hs
    exact ⟨hno.mem ▸ hwf, fun c hc => hno.stack_le (hno.params ▸ hc) (hcap c (hno.params ▸ hc))⟩
  · exact hs

/-- Settles O9: by the four things an instruction that completes can do; a step that runs none leaves the state as it is. -/
theorem everyStepKeepsTheInvariant : Obligations.EveryStepKeepsTheInvariant := by
  intro s t hs h
  obtain ⟨stays, -⟩ | ⟨i, -, -, hstep⟩ | ⟨r, -, -, hstep⟩ := step_cases s
  · cases stays.symm.trans h
    exact hs
  · exact inv_of_exec (s := s.beginStep) hs (hstep.symm.trans h)
  · exact absurd (hstep.symm.trans h) dispatchFault_ne_next

end Sys2Proof.Machine
end

section
/-! Proofs. What every instruction changes and leaves alone: the ports (10_state.md R34, R35), the pc (R29), registers, memory and
parameters (20_memory.md R45), and that a word stored is the word fetched next (R52). Each is read off the four things that
`exec_eq_next` says an instruction that completes can do. -/

namespace Sys2Proof.Machine

variable {s t u : State} {i : Instr} {d : Dst} {ia v addr : Word}

/-! ## A Store that completes -/

/-- The frame of a Store (R45), from its answer. -/
theorem stored_of_store (h : store ia d v s = .next t) : Stored d v s t ∧ t.pc = s.pc ∧ SameRest s t := by
  obtain ⟨r, rfl, rfl⟩ | ⟨a, rfl, inside, rfl⟩ := store_eq_next.1 h
  · exact ⟨stored_setReg r v s, rfl, sameRest_setReg r v s⟩
  · exact ⟨stored_setMem inside v, rfl, sameRest_setMem _ s⟩

/-! ## The ports -/

theorem emits_of_destination (h : destination i = some d) : emits i s = [] := by
  cases i with
  | out a => cases h
  | _ => rfl

theorem takes_of_ne_inp (h : ∀ a, i ≠ .inp a) : takes i = 0 := by
  cases i with
  | inp a => exact absurd rfl (h a)
  | _ => rfl

/-- Before its store, only an `in` has taken input, and that is one byte. -/
theorem BeforeStore.input_eq (before : BeforeStore i d v s u) : u.input = s.input.drop (takes i) := by
  obtain ⟨rfl, -, hin⟩ | ⟨-, rfl, b, hin⟩ | ⟨-, hin, -, hinp⟩ := before.ports
  · exact hin
  · simp [takes, hin]
  · rw [hin, takes_of_ne_inp hinp, List.drop_zero]

/-- Settles O6: a Store does not reach the ports. -/
theorem onlyOutAndInReachThePorts : Obligations.OnlyOutAndInReachThePorts := by
  intro i s t h
  obtain ⟨d, v, u, before, hstore⟩ | ⟨a, b, rfl, -, rfl⟩ | hno | ⟨a, rfl, empty, rfl⟩ := exec_eq_next h
  · obtain ⟨-, -, -, -, hin, hout, -⟩ := stored_of_store hstore
    rw [hin, hout, before.output, emits_of_destination before.dst, List.append_nil]
    exact ⟨rfl, before.input_eq⟩
  · exact ⟨(List.append_nil _).symm, rfl⟩
  · have hinp : ∀ a, i ≠ .inp a := by rintro a rfl; cases hno.dst
    exact ⟨hno.output, by rw [hno.input, takes_of_ne_inp hinp, List.drop_zero]⟩
  · exact ⟨(List.append_nil _).symm, by rw [empty, List.drop_nil]⟩

/-! ## The pc -/

theorem exec_inp (a : Dst) (s : State) : exec (.inp a) s = execIn a s := rfl

theorem pc_of_exec_inp {a : Dst} (h : exec (.inp a) s = .next t) : t.pc = if s.input = [] then s.pc else s.pc + 2 := by
  rw [exec_inp] at h
  cases hin : s.input with
  | nil =>
    rw [execIn_of_nil a hin] at h
    cases h
    rfl
  | cons b bs =>
    rw [execIn_of_cons a hin] at h
    exact (stored_of_store h).2.1

/-- Where control is not transferred, and the instruction is no `in` that could wait, the pc moves past its words. -/
theorem pc_of_exec_of_no_transfer (hinp : ∀ a, i ≠ .inp a) (ht : transferTarget i s = none) (h : exec i s = .next t) :
    t.pc = s.pc + BitVec.ofNat 16 (encode i).length := by
  obtain ⟨d, v, u, before, hstore⟩ | ⟨a, b, rfl, -, rfl⟩ | hno | ⟨a, rfl, -⟩ := exec_eq_next h
  · rw [(stored_of_store hstore).2.1, before.pc]
  · rfl
  · rw [hno.pc, ht, Option.getD_none]
  · exact absurd rfl (hinp a)

/-- Settles O7: an `in`, an instruction that goes on, and one that transfers control. -/
theorem pcAfterEveryInstruction : Obligations.PcAfterEveryInstruction := by
  intro i s t h
  split
  next a => exact pc_of_exec_inp h
  next hinp ht => exact pc_of_exec_of_no_transfer hinp ht h
  next hinp ht => exact (exec_transfer ht h).1

/-! ## Registers, memory and parameters -/

theorem destReg_of_destination {r : RegIdx} (h : destination i = some (.reg r)) : destReg i = some r := by
  simp only [destReg, h]

/-- An instruction that stores to a memory word is a `wmem`, or has that word as its destination. -/
theorem storeAddr_eq_some : storeAddr i s = some addr ↔
    (∃ a b, i = .wmem a b ∧ addr = resolve a s) ∨ destination i = some (.mem addr) := by
  unfold storeAddr
  split
  next a b => simp [destination, eq_comm]
  next hwmem =>
    rw [or_iff_right fun ⟨a, b, hi, _⟩ => hwmem a b hi]
    split
    next hd => simp [hd]
    next hd => exact ⟨fun h => (by cases h), fun h => absurd h (hd addr)⟩

/-- What changes from a state with the same registers and memory is what changes from `s`. -/
theorem stored_congr (h : Stored d v u t) (hmem : u.mem = s.mem) (hregs : u.regs = s.regs) : Stored d v s t := by
  simpa only [Stored, State.reg, hmem, hregs] using h

/-- The frame of an instruction whose one store is a Store to `d`. -/
theorem frame_of_stored (h : Stored d v s t) (hreg : ∀ r, d = .reg r → destReg i = some r)
    (hmem : ∀ a, d = .mem a → storeAddr i s = some a) :
    t.mem.size = s.mem.size ∧ (∀ r, destReg i ≠ some r → t.reg r = s.reg r) ∧
      (storeAddr i s = none → ∀ k, t.mem.readByte k = s.mem.readByte k) ∧
      ∀ addr, storeAddr i s = some addr → ∀ k, k ≠ 2 * addr.toNat → k ≠ 2 * addr.toNat + 1 →
        t.mem.readByte k = s.mem.readByte k := by
  obtain ⟨hsize, h⟩ := h
  cases d with
  | reg r =>
    obtain ⟨-, hother, hbyte⟩ := h
    refine ⟨hsize, fun q hq => hother q fun e => hq (e ▸ hreg r rfl), fun _ => hbyte, fun _ _ k _ _ => hbyte k⟩
  | mem a =>
    obtain ⟨-, hother, hbyte⟩ := h
    refine ⟨hsize, fun q _ => hother q, fun hnone => ?_, fun addr haddr k hlow hhigh => ?_⟩
    · cases (hmem a rfl).symm.trans hnone
    · cases (hmem a rfl).symm.trans haddr
      exact hbyte k hlow hhigh

/-- Settles O52: a Store from a state with the memory and the registers of the start, `wmem`'s included, or no change of these. -/
theorem frameOfEveryInstruction : Obligations.FrameOfEveryInstruction := by
  intro i s t h
  obtain ⟨d, v, u, before, hstore⟩ | ⟨a, b, rfl, inside, rfl⟩ | hno | ⟨a, rfl, -, rfl⟩ := exec_eq_next h
  · obtain ⟨hstored, -, -, -, -, -, hparams, hstepped⟩ := stored_of_store hstore
    have dst := before.dst
    obtain ⟨hsize, hframe⟩ := frame_of_stored (i := i) (stored_congr hstored before.mem before.regs)
      (fun r e => destReg_of_destination (e ▸ dst)) (fun a e => storeAddr_eq_some.2 (.inr (e ▸ dst)))
    exact ⟨hsize, hparams.trans before.params, hstepped.trans before.stepped, hframe⟩
  · obtain ⟨hsize, hframe⟩ := frame_of_stored (i := .wmem a b) (stored_setMem (s := s.advance 3) inside (resolve b s))
      (fun r e => by cases e) (fun c e => by cases e; rfl)
    exact ⟨hsize, rfl, rfl, hframe⟩
  · exact ⟨by rw [hno.mem], hno.params, hno.stepped, fun r _ => by simp only [State.reg, hno.regs],
      fun _ k => by rw [hno.mem], fun _ _ k _ _ => by rw [hno.mem]⟩
  · exact ⟨rfl, rfl, rfl, fun _ _ => rfl, fun _ _ => rfl, fun _ _ _ _ _ => rfl⟩

/-! ## The word that is stored (R52) -/

theorem notWord_eq_ofNat (x : Word) : notWord x = BitVec.ofNat 16 (32767 - x.toNat % 32768) := by
  refine BitVec.eq_of_toNat_eq ?_
  rw [notWord_toNat, BitVec.toNat_ofNat]
  omega

/-- An instruction with a destination that completes, and does not wait, is a Store of the value its rule gives. -/
theorem store_of_exec (hd : destination i = some d) (hin : (∃ a, i = .inp a) → s.input ≠ []) (h : exec i s = .next t) :
    ∃ v u, writtenWord i s = some v ∧ store s.pc d v u = .next t := by
  cases i with
  | halt | push | jmp | jt | jf | wmem | call | ret | out | noop => cases hd
  | set | add | mult | and | or => cases hd; exact ⟨_, _, rfl, h⟩
  | eq _ b c => cases hd; exact ⟨_, _, rfl, exec_eq d b c s ▸ h⟩
  | gt _ b c => cases hd; exact ⟨_, _, rfl, exec_gt d b c s ▸ h⟩
  | not _ b => cases hd; exact ⟨_, _, congrArg some (notWord_eq_ofNat _).symm, h⟩
  | pop =>
    cases hd
    rw [exec_pop] at h
    obtain hs | ⟨l, v, hs⟩ := List.eq_nil_or_concat' s.stack
    · cases (execPop_of_nil d hs).symm.trans h
    · exact ⟨v, _, by simp [writtenWord, hs], execPop_of_concat d hs ▸ h⟩
  | mod _ b c =>
    cases hd
    rw [exec_mod] at h
    by_cases hc : resolve c s = 0
    · cases (execMod_of_zero d b hc).symm.trans h
    · exact ⟨_, _, if_neg hc, execMod_of_ne_zero d b hc ▸ h⟩
  | rmem _ b =>
    cases hd
    rw [exec_rmem] at h
    by_cases hb : (resolve b s).toNat < s.mem.size
    · exact ⟨_, _, Memory.read_eq_some.2 ⟨hb, rfl⟩, execRmem_of_lt d hb ▸ h⟩
    · cases (execRmem_of_ge d (Nat.le_of_not_lt hb)).symm.trans h
  | inp =>
    cases hd
    rw [exec_inp] at h
    obtain ⟨b, bs, hs⟩ := List.exists_cons_of_ne_nil (hin ⟨d, rfl⟩)
    exact ⟨_, _, by rw [writtenWord, hs]; rfl, execIn_of_cons d hs ▸ h⟩

/-- Settles O14: the word that the Store leaves in memory is read by a fetch from the same memory. -/
theorem storedWordsAreFetched : Obligations.StoredWordsAreFetched := by
  intro i s t addr h haddr hin
  have hstore : ∃ v u, writtenWord i s = some v ∧ store s.pc (.mem addr) v u = .next t := by
    obtain ⟨a, b, rfl, rfl⟩ | hd := storeAddr_eq_some.1 haddr
    · exact ⟨_, _, rfl, exec_wmem a b s ▸ h⟩
    · exact store_of_exec hd hin h
  obtain ⟨v, u, hv, hstore⟩ := hstore
  have hread : t.mem.read addr.toNat = some v := dstWord_of_store hstore
  exact ⟨v, hv, hread, fun j hj => by rw [State.instrWord, hj, hread]⟩

end Sys2Proof.Machine
end

section
/-! Proofs. The loop check (30_encoding.md R71), the status it gives (10_state.md R31), waiting for input and the time at which
input arrives (60_exceptions.md R211, R214). -/

namespace Sys2Proof.Machine

variable {s t : State} {i : Instr}

/-! ## The end of a run -/

theorem step_of_not_execute (h : s.loopCheck ≠ .execute) : step s = .next s := by
  obtain ⟨stays, -⟩ | ⟨i, execute, -⟩ | ⟨r, execute, -⟩ := step_cases s
  · exact stays
  · exact absurd execute h
  · exact absurd execute h

/-- A state that a step leaves as it is stays for ever. -/
theorem stepN_of_step_eq_self (h : step s = .next s) (n : Nat) : stepN n s = .next s := by
  induction n with
  | zero => rfl
  | succ n ih => simp only [stepN, h, ih]

/-- Settles O20: what the loop check does not let execute is a fixed point of the step. -/
theorem loopCheckEndsTheRun : Obligations.LoopCheckEndsTheRun := by
  intro s
  refine ⟨fun halted => ⟨status_of_halted halted, stepN_of_step_eq_self (step_of_not_execute ?_)⟩,
    fun unhalted beyond => ⟨status_of_ended unhalted beyond, stepN_of_step_eq_self (step_of_not_execute ?_)⟩,
    fun running => ?terminal⟩
  · rw [loopCheck_halted halted]; decide
  · rw [loopCheck_ended unhalted beyond]; decide
  case terminal =>
    rw [status_of_running running]
    split <;> rfl

/-! ## Waiting -/

theorem waits_iff : s.waits = true ↔ ∃ a, s.fetchDecode = .ok (.inp a) ∧ s.input = [] := by
  unfold State.waits
  split
  next a hd => simp [hd]
  next hno => simp only [Bool.false_eq_true, false_iff]; exact fun ⟨a, hd, _⟩ => hno a hd

theorem waits_eq_false_of_input {b : Byte} {bs : List Byte} (h : s.input = b :: bs) : s.waits = false := by
  rw [← Bool.not_eq_true, waits_iff]
  rintro ⟨a, -, empty⟩
  cases h.symm.trans empty

/-- WAITING is the status of a machine past construction whose next instruction is an `in` without input. -/
theorem of_status_eq_waiting (h : s.status = .waiting) : s.Running ∧ s.stepped = true ∧ s.waits = true := by
  cases hcheck : s.loopCheck with
  | halted => simp [State.status, hcheck] at h
  | ended => simp [State.status, hcheck] at h
  | execute =>
    have running := loopCheck_eq_execute.1 hcheck
    rw [status_of_running running] at h
    split at h
    next hboth => exact ⟨running, Bool.and_eq_true_iff.1 hboth⟩
    next => cases h

/-- After a step of a running machine, it is past construction. -/
theorem stepped_of_step (running : s.Running) (h : step s = .next t) : t.stepped = true := by
  obtain ⟨-, hcheck⟩ | ⟨i, -, -, hstep⟩ | ⟨r, -, -, hstep⟩ := step_cases s
  · exact absurd (loopCheck_eq_execute.2 running) hcheck
  · obtain ⟨-, -, hstepped, -⟩ := frameOfEveryInstruction i s.beginStep t (hstep.symm.trans h)
    exact hstepped
  · exact absurd (hstep.symm.trans h) dispatchFault_ne_next

/-! ## Supplying input changes only the input -/

theorem supplyInput_of_nil (h : s.input = []) (bytes : List Byte) : (s.supplyInput bytes).input = bytes := by
  rw [State.supplyInput_eq, State.setInput_input, h, List.nil_append]

/-- Settles O21: only a step sets `stepped`, and a waiting `in` is run again by each step until a byte is there. -/
theorem waitingEndsWithAByte : Obligations.WaitingEndsWithAByte := by
  refine ⟨fun s t running h running' => ?after, fun s h => ?waiting⟩
  case after =>
    rw [status_of_running running', stepped_of_step running h, Bool.true_and]
    cases t.waits <;> simp
  case waiting =>
    obtain ⟨running, stepped, waits⟩ := of_status_eq_waiting h
    obtain ⟨a, hd, empty⟩ := waits_iff.1 waits
    have execute := loopCheck_eq_execute.2 running
    refine ⟨?stays, a, hd, empty, fun b bs => ⟨?running, ?runs⟩⟩
    case stays => rw [step_of_ok execute hd, State.beginStep_of_stepped stepped, exec_inp, execIn_of_nil a empty]
    case running =>
      rw [status_of_running (s := s.supplyInput (b :: bs)) running, waits_eq_false_of_input (supplyInput_of_nil empty _),
        Bool.and_false]
      rfl
    case runs =>
      rw [step_of_ok (s := s.supplyInput (b :: bs)) execute hd,
        State.beginStep_of_stepped (s := s.supplyInput (b :: bs)) stepped]

/-! ## Input that arrives early -/

/-- The site of a fault with further bytes behind the input that is left. -/
def FaultSite.supplyInput (bytes : List Byte) (site : FaultSite) : FaultSite := { site with input := site.input ++ bytes }

theorem supplyInput_unseen (bytes : List Byte) : Unseen (·.supplyInput bytes) (·.supplyInput bytes) := by
  constructor <;> intros <;> rfl

/-- An instruction that does not wait passes further bytes on. -/
theorem exec_supplyInput (bytes : List Byte) (hin : ∀ a, i = .inp a → s.input ≠ []) :
    exec i (s.supplyInput bytes) = mapResult (·.supplyInput bytes) (·.supplyInput bytes) (exec i s) := by
  have unseen := supplyInput_unseen bytes
  cases i with
  | halt => rfl
  | inp a =>
    obtain ⟨b, bs, hs⟩ := List.exists_cons_of_ne_nil (hin a rfl)
    have hs' : (s.supplyInput bytes).input = b :: (bs ++ bytes) := congrArg (· ++ bytes) hs
    rw [exec_inp, exec_inp, execIn_of_cons a hs, execIn_of_cons a hs']
    exact unseen.store s.pc a (b.setWidth 16) ((s.advance 2).setInput bs)
  | ret =>
    obtain hs | ⟨l, v, hs⟩ := List.eq_nil_or_concat' s.stack
    · simp only [exec_ret, execRet_of_nil hs, execRet_of_nil (s := s.supplyInput bytes) hs]; rfl
    · simp only [exec_ret, execRet_of_concat hs, execRet_of_concat (s := s.supplyInput bytes) hs]; rfl
  | pop a =>
    obtain hs | ⟨l, v, hs⟩ := List.eq_nil_or_concat' s.stack
    · simp only [exec_pop, execPop_of_nil a hs, execPop_of_nil (s := s.supplyInput bytes) a hs]; rfl
    · simp only [exec_pop, execPop_of_concat a hs, execPop_of_concat (s := s.supplyInput bytes) a hs]
      exact unseen.store s.pc a v ((s.advance 2).setStack l)
  | push a =>
    by_cases hs : s.params.stackCapacity = some s.stack.length
    · simp only [exec_push, execPush_of_full a hs, execPush_of_full (s := s.supplyInput bytes) a hs]; rfl
    · simp only [exec_push, execPush_of_room a hs, execPush_of_room (s := s.supplyInput bytes) a hs, unseen.resolve]; rfl
  | call a =>
    by_cases hs : s.params.stackCapacity = some s.stack.length
    · simp only [exec_call, execCall_of_full a hs, execCall_of_full (s := s.supplyInput bytes) a hs]; rfl
    · simp only [exec_call, execCall_of_room a hs, execCall_of_room (s := s.supplyInput bytes) a hs, unseen.resolve]; rfl
  | _ => exact unseen.exec rfl (by simp) (by simp) s

theorem dispatchFault_supplyInput (bytes : List Byte) (r : Reject) :
    dispatchFault r (s.supplyInput bytes) = mapResult (·.supplyInput bytes) (·.supplyInput bytes) (dispatchFault r s) := by
  cases r <;> rfl

/-- Settles O22: neither the phases before the instruction nor an instruction that does not wait sees the further bytes. -/
theorem earlyInputOnlyReleasesAWait : Obligations.EarlyInputOnlyReleasesAWait := by
  intro s bytes hwait
  change step (s.supplyInput bytes) = mapResult (·.supplyInput bytes) (·.supplyInput bytes) (step s)
  obtain ⟨stays, hcheck⟩ | ⟨i, execute, hd, hstep⟩ | ⟨r, execute, hd, hstep⟩ := step_cases s
  · rw [step_of_not_execute (s := s.supplyInput bytes) hcheck, stays]
    rfl
  · rw [step_of_ok (s := s.supplyInput bytes) execute hd, hstep]
    refine exec_supplyInput (s := s.beginStep) bytes fun a hi empty => hwait ⟨loopCheck_eq_execute.1 execute, ?_⟩
    exact waits_iff.2 ⟨a, hi ▸ hd, empty⟩
  · rw [step_of_error (s := s.supplyInput bytes) execute hd, hstep, dispatchFault_supplyInput]

end Sys2Proof.Machine
end

section
/-! Proofs. Two instructions in a row, and equivalent forms of what one writes: `push` then `pop` (41_data_stack.md, S5), `call` then
`ret` (46_call_return.md R172), and the arithmetic of R147 and R148. -/

namespace Sys2Proof.Machine

variable {s t : State} {a : Src}

/-! ## The stack given back -/

theorem next_of_exec_push (h : exec (.push a) s = .next t) : t = (s.advance 2).setStack (s.stack ++ [resolve a s]) :=
  (push_eq_next.1 (show push s.pc (resolve a s) (s.advance 2) = .next t from h)).2

theorem stack_of_exec_call (h : exec (.call a) s = .next t) : t.stack = s.stack ++ [s.pc + 2] := by
  rw [exec_call] at h
  by_cases full : s.params.stackCapacity = some s.stack.length
  · cases (execCall_of_full a full).symm.trans h
  · cases (execCall_of_room a full).symm.trans h
    rfl

/-- Settles O28: `pop` finds what `push` appended on top of the stack before it, and stores it to the register. -/
theorem popUndoesPush : Obligations.PopUndoesPush := by
  intro a r s t h
  cases next_of_exec_push h
  refine ⟨_, (execPop_of_concat (.reg r) rfl).trans (store_reg r), rfl, State.setReg_reg_same _ r _,
    fun q hq => State.setReg_reg_other _ hq _, rfl, ?_⟩
  exact BitVec.add_assoc s.pc 2 2

/-- Settles O49: what `ret` pops is what `call` pushed, whatever else has changed in between. -/
theorem retReturnsFromCall : Obligations.RetReturnsFromCall := by
  intro a s t u h hstack
  rw [exec_ret, execRet_of_concat (hstack.trans (stack_of_exec_call h))]
  rfl

/-! ## Arithmetic in other words (R147, R148) -/

/-- 32768 divides 65536, so wrapping at 16 bits before the reduction loses nothing. -/
theorem addWord_eq_wrapping (x y : Word) : addWord x y = (x + y) % 32768 := by
  refine BitVec.eq_of_toNat_eq ?_
  rw [addWord_toNat, BitVec.toNat_umod, BitVec.toNat_add]
  exact (Nat.mod_mod_of_dvd _ (by decide)).symm

theorem multWord_eq_wrapping (x y : Word) : multWord x y = (x * y) % 32768 := by
  refine BitVec.eq_of_toNat_eq ?_
  rw [multWord_toNat, BitVec.toNat_umod, BitVec.toNat_mul]
  exact (Nat.mod_mod_of_dvd _ (by decide)).symm

/-- Settles O42: by the words that `add` and `mult` Store. -/
theorem wrappingArithmeticAgrees : Obligations.WrappingArithmeticAgrees := by
  refine fun a b c s t => ⟨fun h => ?_, fun h => ?_⟩
  · rw [dstWord_of_store (exec_add a b c s ▸ h), addWord_eq_wrapping]
  · rw [dstWord_of_store (exec_mult a b c s ▸ h), multWord_eq_wrapping]

theorem divisor_pos_of_exec_mod {d : Dst} {b c : Src} (h : exec (.mod d b c) s = .next t) : 0 < (resolve c s).toNat := by
  refine Nat.pos_of_ne_zero fun zero => ?_
  rw [exec_mod, execMod_of_zero d b (BitVec.eq_of_toNat_eq zero)] at h
  cases h

/-- Settles O43: the quotient is that of the division of natural numbers. -/
theorem modObeysDivisionWithRemainder : Obligations.ModObeysDivisionWithRemainder := by
  intro a b c s t h
  refine ⟨(resolve b s).toNat / (resolve c s).toNat, _, _, dstWord_of_exec_mod h, modWord_toNat _ _,
    Nat.mod_lt _ (divisor_pos_of_exec_mod h), ?_⟩
  exact (Nat.div_add_mod' _ _).symm

end Sys2Proof.Machine
end

section
/-! Proofs. `in` (47_io.md R181): a Store of the oldest byte from the state that has consumed it, or a wait. -/

namespace Sys2Proof.Machine

variable {s : State}

/-- A machine past construction that the loop check lets execute waits exactly when the status says so (R31). -/
theorem status_beginStep_of_waits (running : s.Running) (h : s.waits = true) : s.beginStep.status = .waiting := by
  rw [status_of_running (s := s.beginStep) running]
  exact if_pos h

/-- Settles O51: the byte is consumed before the Store, so a Store that faults leaves it consumed. -/
theorem inTakesAByteOrWaits : Obligations.InTakesAByteOrWaits := by
  refine ⟨commonFaults_of_row (.inp (.reg 0)), fun a s => ⟨rfl, execIn_of_nil a, fun running hd empty => ⟨?_, ?_⟩, ?_⟩⟩
  · rw [step_of_ok (loopCheck_eq_execute.2 running) hd]
    exact execIn_of_nil (s := s.beginStep) a empty
  · exact status_beginStep_of_waits running (waits_iff.2 ⟨a, hd, empty⟩)
  · intro b bs hin
    refine ⟨b.setWidth 16, BitVec.toNat_setWidth_of_le (by decide), ?_⟩
    rw [exec_inp, execIn_of_cons a hin]
    refine ⟨fun ok => ?_, fun bad => store_of_not_ok (s := (s.advance 2).setInput bs) bad s.pc _⟩
    obtain ⟨t, hstore, hstored, hpc, hstack, hhalted, hinput, hrest⟩ :=
      store_of_ok (s := (s.advance 2).setInput bs) ok s.pc (b.setWidth 16)
    exact ⟨t, hstore, hstored, hpc, hinput, hstack, hhalted, hrest⟩

end Sys2Proof.Machine
end

section
/-! Proofs. Every fault (60_exceptions.md R200, R201, R204, R209): what it records and keeps, and the four sources of an address
that does not exist. -/

namespace Sys2Proof.Machine

variable {s t : State} {i : Instr} {f : Fault}

/-! ## The site of a fault (R209) -/

/-- An instruction that faults keeps the ports as it found them, but for the byte that an `in` has consumed. -/
theorem site_of_exec_fault (h : exec i s = .fault f) : f.site = s.site s.pc ∨
    ∃ a b bs, i = .inp a ∧ s.input = b :: bs ∧ f.site = ⟨s.pc, s.output, bs⟩ := by
  obtain ⟨addr, -, -, rfl | ⟨b, bs, rfl, hin, rfl⟩⟩ | ⟨a, b, -, -, rfl⟩ | ⟨a, b, -, -, rfl⟩ | ⟨a, -, -, rfl⟩ |
    ⟨a, b, c, -, -, rfl⟩ | ⟨a, -, -, rfl⟩ := exec_eq_fault h
  · exact .inl rfl
  · exact .inr ⟨_, b, bs, rfl, hin, rfl⟩
  all_goals exact .inl rfl

theorem exec_next_or_fault (i : Instr) (s : State) : (∃ t, exec i s = .next t) ∨ ∃ f, exec i s = .fault f := by
  cases h : exec i s with
  | next t => exact .inl ⟨t, rfl⟩
  | fault f => exact .inr ⟨f, rfl⟩
  | refused r => exact absurd h (exec_ne_refused i s r)

theorem dispatchFault_eq_fault (r : Reject) (s : State) : ∃ f, dispatchFault r s = .fault f ∧ f.site = s.site s.pc := by
  cases r <;> exact ⟨_, rfl, rfl⟩

/-- Settles O59: by the three things a step can do; no instruction is refused. -/
theorem stepsGoOnOrFaultPrecisely : Obligations.StepsGoOnOrFaultPrecisely := by
  intro s
  obtain ⟨stays, -⟩ | ⟨i, check, hd, hstep⟩ | ⟨r, check, hd, hstep⟩ := step_cases s
  · exact .inl ⟨s, stays⟩
  · rw [hstep]
    refine (exec_next_or_fault i s.beginStep).imp id fun ⟨f, hf⟩ => ⟨f, hf, loopCheck_eq_execute.1 check, ?_⟩
    obtain hsite | ⟨a, b, bs, rfl, hin, hsite⟩ := site_of_exec_fault hf
    · rw [hsite]
      exact ⟨rfl, rfl, .inl rfl⟩
    · rw [hsite]
      exact ⟨rfl, rfl, .inr ⟨a, b, hd, hin⟩⟩
  · obtain ⟨f, hf, hsite⟩ := dispatchFault_eq_fault r s
    refine .inr ⟨f, hstep.trans hf, loopCheck_eq_execute.1 check, ?_⟩
    rw [hsite]
    exact ⟨rfl, rfl, .inl rfl⟩

/-- Settles O60: the table of R201. -/
theorem faultCodesAndInfo : Obligations.FaultCodesAndInfo :=
  fun _ _ _ => ⟨rfl, rfl, rfl, rfl, rfl, rfl⟩

/-! ## MemoryOutOfBounds (R204) -/

/-- The opcode word of an instruction that the loop check lets execute exists. -/
theorem exists_opcode_word (running : s.Running) : ∃ op, s.instrWord 0 = some op := by
  rw [instrWord_zero]
  exact ⟨_, Memory.read_eq_some.2 ⟨running.2, rfl⟩⟩

/-- A word is reported missing after all that are there: it belongs to the row of the opcode word, the words before it exist, and
it does not. -/
theorem of_fetchDecode_eq_missingWord {j : Nat} (running : s.Running) (h : s.fetchDecode = .error (.missingWord j)) :
    s.instrWord j = none ∧ ∃ k : Instr, s.instrWord 0 = some (BitVec.ofNat 16 k.opcode) ∧ 1 ≤ j ∧
      j ≤ k.operandWords.length ∧ ∀ l, l < j → s.instrWord l ≠ none := by
  obtain ⟨op, hop⟩ := exists_opcode_word running
  have hwindow := window_eq_cons hop
  rw [State.fetchDecode, hwindow, decode_eq_error] at h
  obtain ⟨h, -⟩ | ⟨op', rest, -, -, h⟩ | ⟨k, rest, hw, ⟨hshort, h⟩ | ⟨-, l, w, -, -, -, -, h⟩⟩ := h
  · cases h
  · cases h
  · cases h
    obtain ⟨rfl, rfl⟩ := List.cons.inj hw
    have hk := operandWords_length_le k
    refine ⟨?missing, k, hop, by omega, by omega, fun l hl hnone => ?there⟩
    case missing =>
      rw [Nat.add_comm]
      exact instrWord_of_wordsFrom_short (by omega)
    case there =>
      have := wordsFrom_length_le_of_none (s := s) (j := 0) (n := 4) (by rwa [Nat.zero_add])
      rw [← State.window, hwindow, List.length_cons] at this
      omega
  · cases h

/-- Settles O55: dispatch reports the first missing operand word, and the instructions an address they access. -/
theorem memoryOutOfBoundsNamesAMissingAddress : Obligations.MemoryOutOfBoundsNamesAMissingAddress := by
  intro s addr site h
  obtain ⟨running, hia, ⟨j, hd, rfl⟩ | ⟨i, hd, outside, source⟩⟩ := faultCause_of_step h
  · obtain ⟨missing, k, hk⟩ := of_fetchDecode_eq_missingWord running hd
    exact ⟨running, hia, Memory.read_eq_none.1 missing, .inl ⟨j, k, hd, rfl, hk⟩⟩
  · exact ⟨running, hia, outside, .inr ⟨i, hd, source⟩⟩

end Sys2Proof.Machine
end
